-- ==== Sys2Proof/Word.lean ====
section
/-! DEFINITION. The word types of MPCAL, one abbreviation per width the spec names (00_scope.md rules R6 and R8).
Every value is an unsigned integer of a stated width, so each type is a plain `BitVec`. -/

namespace Sys2Proof

/-- A command word, `CMD_W = 64` bits (R73). -/
abbrev CmdWord := BitVec 64

/-- A response word, `RESP_W = 32` bits (R75). -/
abbrev RespWord := BitVec 32

/-- The `PAYLOAD` field of a response word, bits 16:0 (R75). -/
abbrev Payload := BitVec 17

/-- A raw sample, `RAW_W = 16` bits (R6). -/
abbrev Raw := BitVec 16

/-- A quantized value, a window entry or an emitted value, `OUT_W = 14` bits (R6). -/
abbrev Value := BitVec 14

/-- A count of ticks: `sendCooldown` and the EMIT threshold, `CD_W = 16` bits (R6), and the blink times of R161. -/
abbrev Ticks := BitVec 16

/-- An LED mask, one bit for each of the `NLED = 11` outputs (R28). -/
abbrev Mask := BitVec 11

/-- The channel field `CH` of a command word, two bits, of which 3 names no channel (R77, R80). -/
abbrev ChField := BitVec 2

end Sys2Proof
end

