-- ==== Sys2Proof/Syntax.lean ====
section
/-! DEFINITION. The ten commands of MPCAL, one constructor for each row of spec/opcode_table.json, with the operands of
30_encoding.md rules R76 and R77 at their own widths. -/

namespace Sys2Proof

/-- A command with its operands (R76, R77). A channel operand is the raw two-bit field `CH`; the value 3 names no channel
(R80), which WellFormed.lean says and decoding refuses. -/
inductive Instr where
  /-- NOP: do nothing (R148). -/
  | nop
  /-- ADDSAMPLE c, raw: give channel `c` one raw sample (R100). -/
  | addsample (c : ChField) (raw : Raw)
  /-- ISSTABLE c: report whether channel `c` is stable (R124). -/
  | isstable (c : ChField)
  /-- CURVAL c: the channel's filtered value (R125). -/
  | curval (c : ChField)
  /-- EMIT c, thr: the channel's value if it changed and the cooldown elapsed (R126). -/
  | emit (c : ChField) (thr : Ticks)
  /-- RESET c: return channel `c` to its unready condition (R140). -/
  | reset (c : ChField)
  /-- CALIB c: recompute the channel's `enabled` flag (R143). -/
  | calib (c : ChField)
  /-- TICK: one unit of time has passed (R146). -/
  | tick
  /-- LEDSET mask: drive the outputs from a mask (R160). -/
  | ledset (mask : Mask)
  /-- LEDBLINK maskA, maskB, elapsed, half: drive the outputs from one of two masks (R161). -/
  | ledblink (maskA maskB : Mask) (elapsed half : Ticks)
  deriving DecidableEq, Repr

end Sys2Proof
end

