-- ==== Sys2Proof/WellFormed.lean ====
section
/-! DEFINITION. When a term of `Instr` is an instance of a command (30_encoding.md rules R76, R77 and R80): every operand
value of its width is legal, but for a channel field of 3. -/

namespace Sys2Proof

/-- The channel field of a command of format C or S, and none for the formats N, M and B (R74). -/
def Instr.chField? : Instr → Option ChField
  | .nop => none
  | .addsample c _ => some c
  | .isstable c => some c
  | .curval c => some c
  | .emit c _ => some c
  | .reset c => some c
  | .calib c => some c
  | .tick => none
  | .ledset _ => none
  | .ledblink _ _ _ _ => none

/-- The one check rule R76 makes on operands: a channel field is not 3. -/
def Instr.wf (i : Instr) : Bool :=
  match i.chField? with
  | none => true
  | some c => c != 3

/-- A well-formed command, an instance in the words of rule R76. -/
abbrev Instr.WellFormed (i : Instr) : Prop := i.wf = true

end Sys2Proof
end

