-- ==== Sys2Proof/Decode.lean ====
section
/-! DEFINITION. Decoding a command word, total on all words and refusing by name (30_encoding.md rules R73 to R84 and
60_exceptions.md rules R181 and R182), and after it the encoder, written from the same formats. -/

namespace Sys2Proof

/-- Why a word is rejected (R181). -/
inductive Cause where
  /-- The opcode is 0xA to 0xF (R79). -/
  | illegalOpcode
  /-- A must-be-zero bit of the opcode's format is set (R78). -/
  | reservedNonzero
  /-- The channel field is 3 (R80). -/
  | illegalChannel
  deriving DecidableEq, Repr

/-- The cause codes of rule R181. -/
def Cause.code : Cause → BitVec 4
  | .illegalOpcode => 1
  | .reservedNonzero => 2
  | .illegalChannel => 3

/-- The five formats of rule R74. -/
inductive Format where
  | n
  | c
  | s
  | m
  | b
  deriving DecidableEq, Repr

/-- The must-be-zero mask of each format (R84). -/
def Format.mbz : Format → CmdWord
  | .n => 0x0FFFFFFFFFFFFFFF
  | .c => 0x03FFFFFFFFFFFFFF
  | .s => 0x03FFFFFFFFFF0000
  | .m => 0x0FFFFFFFFFFFF800
  | .b => 0x0FC0000000000000

/-- Formats C and S carry a channel field (R74). -/
def Format.hasChannel : Format → Bool
  | .n => false
  | .c => true
  | .s => true
  | .m => false
  | .b => false

/-! The fields of rule R74. -/

def fieldOp (w : CmdWord) : BitVec 4 := w.extractLsb' 60 4
def fieldCh (w : CmdWord) : ChField := w.extractLsb' 58 2
def fieldImm16 (w : CmdWord) : BitVec 16 := w.extractLsb' 0 16
def fieldMask (w : CmdWord) : Mask := w.extractLsb' 0 11
def fieldMaskB (w : CmdWord) : Mask := w.extractLsb' 11 11
def fieldElapsed (w : CmdWord) : Ticks := w.extractLsb' 22 16
def fieldHalf (w : CmdWord) : Ticks := w.extractLsb' 38 16

/-- The opcode map (R76): the format of an opcode and the command its operand fields make, or none for the reserved
opcodes 0xA to 0xF (R79). -/
def opcodeRow? (op : BitVec 4) (w : CmdWord) : Option (Format × Instr) :=
  match op.toNat with
  | 0 => some (.n, .nop)
  | 1 => some (.s, .addsample (fieldCh w) (fieldImm16 w))
  | 2 => some (.c, .isstable (fieldCh w))
  | 3 => some (.c, .curval (fieldCh w))
  | 4 => some (.s, .emit (fieldCh w) (fieldImm16 w))
  | 5 => some (.c, .reset (fieldCh w))
  | 6 => some (.c, .calib (fieldCh w))
  | 7 => some (.n, .tick)
  | 8 => some (.m, .ledset (fieldMask w))
  | 9 => some (.b, .ledblink (fieldMask w) (fieldMaskB w) (fieldElapsed w) (fieldHalf w))
  | _ => none

/-- What a word decodes to: one command, or a rejection with its cause (R84). -/
inductive Decoded where
  | command (i : Instr)
  | rejected (c : Cause)
  deriving DecidableEq, Repr

/-- The decode procedure (R84): the opcode test, the must-be-zero test, the channel test, then the operands; the first
test that fires decides (R182). -/
def decodeWord (w : CmdWord) : Decoded :=
  match opcodeRow? (fieldOp w) w with
  | none => .rejected .illegalOpcode
  | some (f, i) =>
    if w &&& f.mbz ≠ 0 then .rejected .reservedNonzero
    else if f.hasChannel = true ∧ fieldCh w = 3 then .rejected .illegalChannel
    else .command i

/-- The word of a command, from the formats of rule R74 and the opcodes of rule R76. -/
def encode : Instr → CmdWord
  | .nop => (0x0#4 ++ 0#60 : BitVec 64)
  | .addsample c raw => (0x1#4 ++ c ++ 0#42 ++ raw : BitVec 64)
  | .isstable c => (0x2#4 ++ c ++ 0#58 : BitVec 64)
  | .curval c => (0x3#4 ++ c ++ 0#58 : BitVec 64)
  | .emit c thr => (0x4#4 ++ c ++ 0#42 ++ thr : BitVec 64)
  | .reset c => (0x5#4 ++ c ++ 0#58 : BitVec 64)
  | .calib c => (0x6#4 ++ c ++ 0#58 : BitVec 64)
  | .tick => (0x7#4 ++ 0#60 : BitVec 64)
  | .ledset mask => (0x8#4 ++ 0#49 ++ mask : BitVec 64)
  | .ledblink maskA maskB elapsed half => (0x9#4 ++ 0#6 ++ half ++ elapsed ++ maskB ++ maskA : BitVec 64)

/-- A row of the machine-readable opcode table: the word's fixed bits and which bits they are (R84, spec/opcode_table.json). -/
structure TableRow where
  pattern : CmdWord
  mask : CmdWord
  format : Format
  deriving DecidableEq, Repr

/-- The ten rows of spec/opcode_table.json, in its order: NOP, ADDSAMPLE, ISSTABLE, CURVAL, EMIT, RESET, CALIB, TICK,
LEDSET, LEDBLINK. -/
def opcodeTable : List TableRow :=
  [⟨0x0000000000000000, 0xFFFFFFFFFFFFFFFF, .n⟩,
   ⟨0x1000000000000000, 0xF3FFFFFFFFFF0000, .s⟩,
   ⟨0x2000000000000000, 0xF3FFFFFFFFFFFFFF, .c⟩,
   ⟨0x3000000000000000, 0xF3FFFFFFFFFFFFFF, .c⟩,
   ⟨0x4000000000000000, 0xF3FFFFFFFFFF0000, .s⟩,
   ⟨0x5000000000000000, 0xF3FFFFFFFFFFFFFF, .c⟩,
   ⟨0x6000000000000000, 0xF3FFFFFFFFFFFFFF, .c⟩,
   ⟨0x7000000000000000, 0xFFFFFFFFFFFFFFFF, .n⟩,
   ⟨0x8000000000000000, 0xFFFFFFFFFFFFF800, .m⟩,
   ⟨0x9000000000000000, 0xFFC0000000000000, .b⟩]

/-- The words that are instances of a row (R76): the fixed bits match and, where there is a channel field, it is not 3. -/
def TableRow.isInstanceWord (r : TableRow) (w : CmdWord) : Bool :=
  w &&& r.mask == r.pattern && !(r.format.hasChannel && fieldCh w == 3)

/-- Eight bytes of a byte channel as one word, the most significant byte first (R52). Fewer than eight bytes are no
command, since a word is accepted whole or not at all (R53); the bytes after the eighth are handed back. -/
def wordOfBytes : List (BitVec 8) → Option (CmdWord × List (BitVec 8))
  | b7 :: b6 :: b5 :: b4 :: b3 :: b2 :: b1 :: b0 :: rest =>
    some ((b7 ++ b6 ++ b5 ++ b4 ++ b3 ++ b2 ++ b1 ++ b0 : BitVec 64), rest)
  | _ => none

/-- Decoding from a byte channel (R52, R84). -/
def decodeBytes (bs : List (BitVec 8)) : Option (Decoded × List (BitVec 8)) :=
  match wordOfBytes bs with
  | none => none
  | some (w, rest) => some (decodeWord w, rest)

/-- The word whose low `nbits` bits are those of `w` and whose other bits are zero. -/
def tableWord (nbits w : Nat) : CmdWord := BitVec.ofNat 64 (w % 2 ^ nbits)

/-- The command that the word with table bits `w` decodes to, none where it is rejected. A command is one 64-bit word
numbered with bit 0 least significant (R9, R73), as the table numbers it, and no command is longer. -/
def decodeTableWord (nbits w : Nat) : Option Instr :=
  if nbits ≤ 64 then
    match decodeWord (tableWord nbits w) with
    | .command i => some i
    | .rejected _ => none
  else none

end Sys2Proof
end

