-- ==== Sys2Proof/Config.lean ====
section
/-! DEFINITION. What one MPCAL fixes: the parameters of 00_scope.md rule R6 as one record, and the one open parameter
that a model must leave free, `ARB` (R57). The counts `NCH` and `NLED` and the widths of R6 are the types of Word.lean and
State.lean. `SCALE_ROUND` and `MEDIAN_EVEN` are `Machine.scale` and `Machine.medianEven`, written out at their one use. -/

namespace Sys2Proof

/-- The numeric parameters of rule R6 that the rules use by name. -/
structure Params where
  /-- `WIN`: capacity of the filter window. -/
  win : Nat
  /-- `OUT_MAX`: largest quantized value. -/
  outMax : Nat
  /-- `THETA_SHIFT`: the deadband is the range shifted right by this. -/
  thetaShift : Nat
  /-- `MIN_INIT`: initial `observedMin`. -/
  minInit : Raw
  /-- `MAX_INIT`: initial `observedMax`. -/
  maxInit : Raw
  /-- `CD_MAX`: saturation value of `sendCooldown`. -/
  cdMax : Ticks
  /-- `LAST_INIT`: initial `lastEmittedValue`. -/
  lastInit : Value
  deriving DecidableEq, Repr

/-- The values rule R6 gives. -/
def params : Params where
  win := 8
  outMax := 16383
  thetaShift := 7
  minInit := 0xFFFF
  maxInit := 0
  cdMax := 0xFFFF
  lastInit := 0

/-- The open parameter `ARB` (R57, U6): which of several ports that present a command together is served first. A free
value: it has no body, so nothing can be proved of it, and the machine applies it to a counter that every served command
advances (assumption log, entry 2). -/
opaque Config.arb : Nat → Nat

end Sys2Proof
end

