-- ==== Sys2Proof/Machine/State.lean ====
section
/-! DEFINITION. The state of MPCAL as plain data (10_state.md rules R20 to R28), with the interface the step needs because
it takes no argument: what each port presents (30_encoding.md rule R70), the reset input, and the responses given (R231). -/

namespace Sys2Proof.Machine

/-- One AnalogChannel record (R21 to R26). -/
structure Channel where
  /-- `min[c]`, the document's `observedMin` (R21). -/
  min : Raw
  /-- `max[c]`, the document's `observedMax` (R22). -/
  max : Raw
  /-- `win[c]`, the filter window, oldest entry first; its length is `cnt[c]` (R23). -/
  win : List Value
  /-- `enabled[c]` (R24). -/
  enabled : Bool
  /-- `last[c]`, the document's `lastEmittedValue` (R25). -/
  last : Value
  /-- `cd[c]`, the document's `sendCooldown` (R26). -/
  cd : Ticks
  deriving DecidableEq, Repr

/-- `cnt[c]`, the number of entries in the window, the document's `getCount` (R23). -/
def Channel.cnt (ch : Channel) : Nat := ch.win.length

/-- The three channels (R5, R20). -/
inductive ChanId where
  | c0
  | c1
  | c2
  deriving DecidableEq, Repr

/-- The three agents that cause steps, each with a port of its own (R55, R70). -/
inductive Agent where
  /-- The host polling loop, on the H-port. -/
  | host
  /-- The sample source, on the S-port. -/
  | source
  /-- The timebase, on the T-port. -/
  | timebase
  deriving DecidableEq, Repr

/-- The operands of one S-port transaction, `s_ch` and `s_raw` (R70). -/
structure Sample where
  ch : ChField
  raw : Raw
  deriving DecidableEq, Repr

/-- One response, paired with the agent that received it (R231). -/
structure Response where
  agent : Agent
  word : RespWord
  deriving DecidableEq, Repr

/-- The machine. `ch0` to `ledOut` are the block's whole state (R20). The fields after them are its interface, the model's
own form of the ports of rule R70 (assumption log, entries 1 to 4). -/
structure State where
  /-- Channel 0 (R20). -/
  ch0 : Channel
  /-- Channel 1 (R20). -/
  ch1 : Channel
  /-- Channel 2 (R20). -/
  ch2 : Channel
  /-- The LED output latch (R28). -/
  ledOut : Mask
  /-- The reset input `rst` (R70, R210). -/
  rst : Bool
  /-- The words the host presents on the H-port, in its issue order; the head is the one on `h_cmd` (R56, R70). -/
  hostCmds : List CmdWord
  /-- The transactions the sample source presents on the S-port, in its issue order (R56, R70). -/
  samples : List Sample
  /-- How many transactions the timebase still presents on the T-port (R56, R70). -/
  ticks : Nat
  /-- The response word of the command just executed (R75). -/
  resp : RespWord
  /-- Every response given so far, oldest first, with the agent that received it (R231). -/
  responses : List Response
  /-- How many commands have been served; `Config.arb` is applied to it (R57). -/
  arbCount : Nat
  deriving DecidableEq, Repr

/-- Why the machine stops. No condition of the block is fatal (R183), and no state a run reaches raises this. -/
inductive Fault where
  /-- The median of a window that is not full was asked for. Raised by CURVAL and by EMIT on a channel that is enabled while
  its window does not hold eight entries, a state no command produces (R27 (e), R144). Median is not defined there (R123),
  and the spec has a model give it no value and refuse to evaluate it (93_implementation_defined.md U4). Safe. -/
  | medianUndefined
  deriving DecidableEq, Repr

/-- Why an instruction has no meaning. -/
inductive Refusal where
  /-- Raised by an arm of `exec` whose instruction is not modelled yet. Safe: the machine stops by name. No arm does so. -/
  | notModelled (mnemonic : String)
  deriving DecidableEq, Repr

/-- What executing a command answers. -/
abbrev Result := Host.Outcome State Fault Refusal

/-- The initial, unready condition of a channel (R35, R140). -/
def Channel.fresh : Channel where
  min := params.minInit
  max := params.maxInit
  win := []
  enabled := false
  last := params.lastInit
  cd := 0

/-- The machine right after the reset input is released (R35, R210), with no port presenting a command. -/
def State.reset : State where
  ch0 := Channel.fresh
  ch1 := Channel.fresh
  ch2 := Channel.fresh
  ledOut := 0
  rst := false
  hostCmds := []
  samples := []
  ticks := 0
  resp := 0
  responses := []
  arbCount := 0

end Sys2Proof.Machine
end

