-- ==== Sys2Proof/Machine/Ops.lean ====
section
/-! DEFINITION. The named operations over the registers and the ports: reading and writing a channel, completing a command
with its payload, rejecting one with its cause, the reset input, and the arbitration of the three ports. -/

namespace Sys2Proof.Machine

/-! ## Registers -/

/-- The record of one channel. -/
def State.chan (s : State) : ChanId → Channel
  | .c0 => s.ch0
  | .c1 => s.ch1
  | .c2 => s.ch2

/-- Replace the record of one channel; the other two are untouched (R20). -/
def State.setChan (s : State) (k : ChanId) (ch : Channel) : State :=
  match k with
  | .c0 => { s with ch0 := ch }
  | .c1 => { s with ch1 := ch }
  | .c2 => { s with ch2 := ch }

/-- Apply one function to all three channel records. -/
def State.mapChans (s : State) (f : Channel → Channel) : State :=
  { s with ch0 := f s.ch0, ch1 := f s.ch1, ch2 := f s.ch2 }

/-- The level of LED pin `i`: `led[i] = ledOut[i]`, continuously (R28, R70). -/
def State.led (s : State) (i : Fin 11) : Bool := s.ledOut.getLsbD i

/-! ## Outcomes of a command -/

/-- The response word of a completed command: `ERR = 0`, bits 30:17 zero, then the payload (R75). -/
def completedWord (p : Payload) : RespWord := (0#1 ++ 0#14 ++ p : BitVec 32)

/-- The response word of a rejected command: `ERR = 1` and the cause code in the low four bits (R75, R180). -/
def rejectedWord (c : Cause) : RespWord := (1#1 ++ 0#27 ++ c.code : BitVec 32)

/-- The `ERR` bit of a response, which on the S-port is `s_err` (R72, R75). -/
def Response.err (r : Response) : Bool := r.word.getLsbD 31

/-- Complete a command: respond with its payload (R11). -/
def State.complete (s : State) (p : Payload) : State := { s with resp := completedWord p }

/-- Reject a command: no register changes and the response names the cause (R11, R180). The one exceptional outcome of the
block; there is no trap, no handler and nothing to return from (R180, R184). -/
def State.reject (s : State) (c : Cause) : State := { s with resp := rejectedWord c }

/-! ## The reset input -/

/-- What asserting and releasing `rst` does (R210, R211): every channel and the LED latch take their reset values, and the
command each port presents, not yet acknowledged, is dropped without a response. Responses already given stay given. -/
def State.resetInput (s : State) : State :=
  { s with
    ch0 := Channel.fresh
    ch1 := Channel.fresh
    ch2 := Channel.fresh
    ledOut := 0
    rst := false
    hostCmds := s.hostCmds.tail
    samples := s.samples.tail
    ticks := s.ticks - 1
    resp := 0 }

/-! ## Ports -/

/-- The word an S-port transaction is (R72): `0x1 ++ s_ch ++ zext_42(0) ++ s_raw`. -/
def sourceWord (x : Sample) : CmdWord := (0x1#4 ++ x.ch ++ 0#42 ++ x.raw : BitVec 64)

/-- The word a T-port transaction is (R72). -/
def timebaseWord : CmdWord := 0x7000000000000000

/-- The word an agent presents now, if it presents one (R70, R72). -/
def State.presented (s : State) : Agent → Option CmdWord
  | .host => s.hostCmds.head?
  | .source => s.samples.head?.map sourceWord
  | .timebase => if s.ticks = 0 then none else some timebaseWord

/-- The agents that present a command now. -/
def State.waiting (s : State) : List Agent :=
  [Agent.host, Agent.source, Agent.timebase].filter fun a => (s.presented a).isSome

/-- The agent served next (R57): none where no agent waits, the one that waits where only one does, and the choice of the
open parameter `ARB` where several present a command at the same time. -/
def State.arbitrate (s : State) : Option Agent :=
  match s.waiting with
  | [] => none
  | [a] => some a
  | a :: rest => some ((a :: rest).getD (Config.arb s.arbCount % (a :: rest).length) a)

/-- Take an agent's presented command off its port (R56, R71). -/
def State.accept (s : State) (a : Agent) : State :=
  match a with
  | .host => { s with hostCmds := s.hostCmds.tail, arbCount := s.arbCount + 1 }
  | .source => { s with samples := s.samples.tail, arbCount := s.arbCount + 1 }
  | .timebase => { s with ticks := s.ticks - 1, arbCount := s.arbCount + 1 }

/-- Give the response to the agent whose command was executed (R71, R231). -/
def State.deliver (s : State) (a : Agent) : State :=
  { s with responses := s.responses ++ [⟨a, s.resp⟩] }

end Sys2Proof.Machine
end

