-- ==== Sys2Proof/Machine/Window.lean ====
section
/-! DEFINITION. The filter window (10_state.md rule R23): the push of 40_sample_path.md rule R104 and the functions of
41_query_emit.md rules R121 to R123. -/

namespace Sys2Proof.Machine

/-- Push (R104): append, and drop the oldest entry when the window already holds `WIN` entries. -/
def push (win : List Value) (v : Value) : List Value :=
  if win.length < params.win then win ++ [v] else win.tail ++ [v]

/-- Highest (R121): the largest entry; no value on an empty window. -/
def highest? (win : List Value) : Option Nat := (win.map BitVec.toNat).max?

/-- Lowest (R122): the smallest entry; no value on an empty window. -/
def lowest? (win : List Value) : Option Nat := (win.map BitVec.toNat).min?

/-- The entries sorted in non-decreasing order, the `s` of rule R123. -/
def sortedEntries (win : List Value) : List Nat := (win.map BitVec.toNat).insertionSort (· ≤ ·)

/-- `MEDIAN_EVEN` (R6, R123): the floor of the mean of the two middle entries. -/
def medianEven (lower upper : Nat) : Nat := (lower + upper) / 2

/-- Median (R123): defined on a full window only, and given no value on any other (U4). -/
def median? (win : List Value) : Option Value :=
  if win.length = params.win then
    some (BitVec.ofNat 14 (medianEven ((sortedEntries win).getD 3 0) ((sortedEntries win).getD 4 0)))
  else none

end Sys2Proof.Machine
end

