-- ==== Sys2Proof/Machine/Flags.lean ====
section
/-! DEFINITION. The conditions of 10_state.md rule R31. There is no flags register: `Full` and `Stable` are functions of
the window, and `enabled` is a register of the channel. -/

namespace Sys2Proof.Machine

/-- Full (R120): the window holds `WIN` entries. -/
def full (win : List Value) : Bool := win.length == params.win

/-- Stable (R120): the window is full and its highest entry equals its lowest. -/
def stable (win : List Value) : Bool := full win && highest? win == lowest? win

end Sys2Proof.Machine
end

