-- ==== Sys2Proof/Machine/Operands.lean ====
section
/-! DEFINITION. The operand forms (30_encoding.md rule R77) and the payload forms (R75). Every operand but a channel field is
used at its own width as it stands. -/

namespace Sys2Proof.Machine

/-- The channel a field names; 3 names none (R77, R80). -/
def channel? (c : ChField) : Option ChanId :=
  match c.toNat with
  | 0 => some .c0
  | 1 => some .c1
  | 2 => some .c2
  | _ => none

/-- Run a command on the channel its field names, and reject it with `ILLEGAL_CHANNEL` where the field names none (R80). -/
def withChannel (c : ChField) (s : State) (f : ChanId → Result) : Result :=
  match channel? c with
  | none => .next (s.reject .illegalChannel)
  | some k => f k

/-- The payload of ISSTABLE: bit 0 (R75). -/
def boolPayload (b : Bool) : Payload := if b then 1 else 0

/-- The payload of CURVAL: the value in bits 15:0, zero above (R75). -/
def valuePayload (v : Value) : Payload := v.setWidth 17

/-- `highByte`, the upper seven bits of an emitted value (R126). -/
def highByte (m : Value) : BitVec 7 := m.extractLsb' 7 7

/-- `lowByte`, the lower seven bits of an emitted value (R126). -/
def lowByte (m : Value) : BitVec 7 := m.extractLsb' 0 7

/-- The payload of an EMIT that emits: bit 16 set, then each seven-bit byte in a lane of eight bits (R75). -/
def emittedPayload (m : Value) : Payload := (1#1 ++ 0#1 ++ highByte m ++ 0#1 ++ lowByte m : BitVec 17)

/-- The payload of LEDSET and LEDBLINK: the new `ledOut` in bits 10:0 (R75). -/
def maskPayload (m : Mask) : Payload := m.setWidth 17

end Sys2Proof.Machine
end

