-- ==== Sys2Proof/Machine/Control.lean ====
section
/-! DEFINITION. Control commands: RESET, CALIB, TICK and NOP (42_control.md rules R140, R143, R146 and R148). -/

namespace Sys2Proof.Machine

/-- RESET c (R140): the channel's whole record returns to its initial condition; other channels and `ledOut` stay. -/
def execReset (c : ChField) (s : State) : Result :=
  withChannel c s fun k => .next ((s.setChan k Channel.fresh).complete 0)

/-- The recomputation of a channel's `enabled` flag (R143): an assignment from the window as it is now. -/
def Channel.calibrated (ch : Channel) : Channel := { ch with enabled := stable ch.win }

/-- CALIB c (R143): assign `enabled[c]` from the window. -/
def execCalib (c : ChField) (s : State) : Result :=
  withChannel c s fun k => .next ((s.setChan k (s.chan k).calibrated).complete 0)

/-- One more tick on a cooldown counter, saturating at `CD_MAX` (R146). -/
def tickCd (cd : Ticks) : Ticks := if cd = params.cdMax then cd else cd + 1

/-- One tick passed for a channel (R146). -/
def Channel.ticked (ch : Channel) : Channel := { ch with cd := tickCd ch.cd }

/-- TICK (R146): every channel's cooldown counter advances, enabled or not. -/
def execTick (s : State) : Result :=
  .next ((s.mapChans Channel.ticked).complete 0)

/-- NOP (R148): respond with 0 and nothing else. -/
def execNop (s : State) : Result := .next (s.complete 0)

end Sys2Proof.Machine
end

