-- ==== Sys2Proof/Machine/Led.lean ====
section
/-! DEFINITION. The LED renderer: LEDSET and LEDBLINK (43_led.md rules R160 and R161). -/

namespace Sys2Proof.Machine

/-- Drive the output latch and respond with its new value (R160, R161). -/
def State.render (s : State) (m : Mask) : State := { s with ledOut := m }.complete (maskPayload m)

/-- LEDSET mask (R160). -/
def execLedset (mask : Mask) (s : State) : Result := .next (s.render mask)

/-- The phase of a blink, 0 or 1 (R161); with a half-period of 0 nothing is divided and the phase is 0. -/
def blinkPhase (elapsed half : Ticks) : Nat :=
  if half = 0 then 0 else elapsed.toNat / half.toNat % 2

/-- LEDBLINK maskA, maskB, elapsed, half (R161). -/
def execLedblink (maskA maskB : Mask) (elapsed half : Ticks) (s : State) : Result :=
  .next (s.render (if blinkPhase elapsed half = 0 then maskA else maskB))

end Sys2Proof.Machine
end

