-- ==== Sys2Proof/Machine/Query.lean ====
section
/-! DEFINITION. Queries and rate-limited emission: ISSTABLE, CURVAL and EMIT (41_query_emit.md rules R124 to R126). -/

namespace Sys2Proof.Machine

/-- ISSTABLE c (R124): a pure query, whatever `enabled[c]` is. -/
def execIsstable (c : ChField) (s : State) : Result :=
  withChannel c s fun k => .next (s.complete (boolPayload (stable (s.chan k).win)))

/-- Go on with the median of a channel's window; where it has no value the machine stops (R123, U4). -/
def withMedian (ch : Channel) (f : Value → Result) : Result :=
  match median? ch.win with
  | some m => f m
  | none => .fault .medianUndefined

/-- CURVAL c (R125): the median of an enabled channel, 0 for any other. -/
def execCurval (c : ChField) (s : State) : Result :=
  withChannel c s fun k =>
    if (s.chan k).enabled then withMedian (s.chan k) fun m => .next (s.complete (valuePayload m))
    else .next (s.complete 0)

/-- The gate of an emission on an enabled channel whose median is `m` (R126): the value has changed since the last emission
and the cooldown has reached the threshold. -/
def emits (ch : Channel) (m : Value) (thr : Ticks) : Bool := m != ch.last && decide (thr ≤ ch.cd)

/-- What an emission of `m` leaves in the channel (R126): the value is the last one sent and the cooldown restarts. -/
def Channel.emitted (ch : Channel) (m : Value) : Channel := { ch with last := m, cd := 0 }

/-- EMIT c, thr (R126): an emission records the value and restarts the cooldown; a refused one changes no register. -/
def execEmit (c : ChField) (thr : Ticks) (s : State) : Result :=
  withChannel c s fun k =>
    if (s.chan k).enabled then
      withMedian (s.chan k) fun m =>
        if emits (s.chan k) m thr then
          .next ((s.setChan k ((s.chan k).emitted m)).complete (emittedPayload m))
        else .next (s.complete 0)
    else .next (s.complete 0)

end Sys2Proof.Machine
end

