-- ==== Sys2Proof/Machine/Quantize.lean ====
section
/-! DEFINITION. Range tracking and quantization (40_sample_path.md rules R101 to R103), on exact natural numbers as rule R105
allows, narrowed once at the end. -/

namespace Sys2Proof.Machine

/-- The lower half of Expand (R101). -/
def expandMin (mn raw : Raw) : Raw := if raw < mn then raw else mn

/-- The upper half of Expand (R101); the two comparisons are independent. -/
def expandMax (mx raw : Raw) : Raw := if mx < raw then raw else mx

/-- The deadband of a range (R103). -/
def theta (range : Nat) : Nat := range >>> params.thetaShift

/-- The offset clamped to the extremes inside the deadbands; both comparisons are strict (R103). -/
def clampOffset (range off : Nat) : Nat :=
  if off < theta range then 0
  else if range - theta range < off then range
  else off

/-- The linear scaling into `[0, OUT_MAX]`, with `SCALE_ROUND` the floor (R6, R103). -/
def scale (range cl : Nat) : Nat := cl * params.outMax / range

/-- Quantize (R102, R103): no value for a range of zero, where nothing is divided, and the inverted scaled offset
otherwise. `mn` and `mx` already include `raw`. -/
def quantize? (mn mx raw : Raw) : Option Value :=
  let range := mx.toNat - mn.toNat
  if range = 0 then none
  else
    let off := raw.toNat - mn.toNat
    some (BitVec.ofNat 14 (params.outMax - scale range (clampOffset range off)))

end Sys2Proof.Machine
end

