-- ==== Sys2Proof/Machine/SamplePath.lean ====
section
/-! DEFINITION. The sample path: ADDSAMPLE (40_sample_path.md rule R100). -/

namespace Sys2Proof.Machine

/-- One channel given one raw sample (R100): the range is expanded first and the sample is quantized against the expanded
range; with a range of zero nothing is pushed. -/
def Channel.addSample (ch : Channel) (raw : Raw) : Channel :=
  let mn := expandMin ch.min raw
  let mx := expandMax ch.max raw
  match quantize? mn mx raw with
  | none => { ch with min := mn, max := mx }
  | some v => { ch with min := mn, max := mx, win := push ch.win v }

/-- ADDSAMPLE c, raw (R100). -/
def execAddsample (c : ChField) (raw : Raw) (s : State) : Result :=
  withChannel c s fun k => .next ((s.setChan k ((s.chan k).addSample raw)).complete 0)

end Sys2Proof.Machine
end

