-- ==== Sys2Proof/Machine/Dispatch.lean ====
section
/-! DEFINITION. One arm for each command of rule R76, each a direct call of its meaning. -/

namespace Sys2Proof.Machine

def exec (i : Instr) (s : State) : Host.Outcome State Fault Refusal :=
  match i with
  | .nop => Sys2Proof.Machine.execNop s
  | .addsample c raw => Sys2Proof.Machine.execAddsample c raw s
  | .isstable c => Sys2Proof.Machine.execIsstable c s
  | .curval c => Sys2Proof.Machine.execCurval c s
  | .emit c thr => Sys2Proof.Machine.execEmit c thr s
  | .reset c => Sys2Proof.Machine.execReset c s
  | .calib c => Sys2Proof.Machine.execCalib c s
  | .tick => Sys2Proof.Machine.execTick s
  | .ledset mask => Sys2Proof.Machine.execLedset mask s
  | .ledblink maskA maskB elapsed half => Sys2Proof.Machine.execLedblink maskA maskB elapsed half s

end Sys2Proof.Machine
end

