-- ==== Sys2Proof/Machine/Execute.lean ====
section
/-! DEFINITION. One whole transaction: a presented word is decoded, executed or rejected, and its response is given to the
agent that presented it (20_memory.md rule R53, 30_encoding.md rules R71 and R84). -/

namespace Sys2Proof.Machine

/-- Execute a command word: the function from (state, command) to (state, response) of rule R71. -/
def execWord (w : CmdWord) (s : State) : Result :=
  match decodeWord w with
  | .command i => exec i s
  | .rejected c => .next (s.reject c)

/-- Give the response to the agent, where there is a next state. -/
def delivered (a : Agent) : Result → Result
  | .next t => .next (t.deliver a)
  | .fault f => .fault f
  | .refused r => .refused r

/-- Serve the agent that `arbitrate` names, or hold the state where no agent waits (R194). -/
def serve (s : State) : Result :=
  match s.arbitrate with
  | none => .next s
  | some a =>
    match s.presented a with
    | none => .next s
    | some w => delivered a (execWord w (s.accept a))

/-- One step: the reset input if it is asserted, since no command is accepted then (R210), or else one command (R12). -/
def advance (s : State) : Result := if s.rst then .next s.resetInput else serve s

/-- The state with one word at the head of the H-port's commands and the other inputs quiet, so that the next step
serves it. -/
def presentWord (w : CmdWord) (s : State) : State :=
  { s with rst := false, hostCmds := w :: s.hostCmds, samples := [], ticks := 0 }

end Sys2Proof.Machine
end

