-- ==== Sys2Proof/Machine/Step.lean ====
section
/-! DEFINITION. The step, and how a word of the opcode table is placed where the next step takes its command. -/

namespace Sys2Proof.Machine

/-- One step of the machine (00_scope.md rule R12): the complete execution of one command, or the reset input. -/
def step (s : State) : Host.Outcome State Fault Refusal := advance s

/-- The state whose next step executes the word with table bits `w`: the host presents it and no other agent presents
anything (assumption log, entry 6). -/
def State.withFetchWord (s : State) (nbits w : Nat) : State := presentWord (tableWord nbits w) s

end Sys2Proof.Machine
end

