-- ==== Sys2Proof/Safety.lean ====
section
/-! DEFINITION. What counts as a good state and a good run, in the terms the statements use: the invariants of 10_state.md
rule R27, what a rejection looks like from outside (60_exceptions.md rule R180), and runs as serialised commands
(70_reset_and_hazards.md rule R231). -/

namespace Sys2Proof.Machine

/-- The invariants of one channel (R27 (a), (c), (d) and (e)); (b) and (f) hold by the type `Value`. Before the first
sample the range is the empty range of reset, and after it `min ≤ max` (R27 (c)). -/
abbrev Channel.Inv (ch : Channel) : Prop :=
  ch.cnt ≤ params.win ∧
  ((ch.min = params.minInit ∧ ch.max = params.maxInit) ∨ ch.min ≤ ch.max) ∧
  (ch.cnt ≠ 0 → ch.min < ch.max) ∧
  (ch.enabled = true → ch.cnt = params.win)

/-- The invariants hold of every channel (R27). -/
abbrev State.Inv (s : State) : Prop := s.ch0.Inv ∧ s.ch1.Inv ∧ s.ch2.Inv

/-- The block's registers agree: every channel and the LED latch (R20). -/
abbrev SameRegisters (s t : State) : Prop :=
  t.ch0 = s.ch0 ∧ t.ch1 = s.ch1 ∧ t.ch2 = s.ch2 ∧ t.ledOut = s.ledOut

/-- Everything that is not a register of the block or the response just formed agrees: the ports, the reset input and the
responses given. -/
abbrev SameInterface (s t : State) : Prop :=
  t.rst = s.rst ∧ t.hostCmds = s.hostCmds ∧ t.samples = s.samples ∧ t.ticks = s.ticks ∧
  t.responses = s.responses ∧ t.arbCount = s.arbCount

/-- Every word with opcode `op` and a bit of `mbz` set changes nothing and answers `0x80000002` (R78, R181). -/
abbrev RejectsReserved (op : Nat) (mbz : CmdWord) : Prop :=
  ∀ (w : CmdWord) (s : State), w.toNat / 2 ^ 60 = op → w &&& mbz ≠ 0 → execWord w s = .next { s with resp := 0x80000002 }

/-- Every word with opcode `op`, no bit of `mbz` set and 3 in bits 59:58 changes nothing and answers `0x80000003`
(R80, R181). -/
abbrev RejectsChannelThree (op : Nat) (mbz : CmdWord) : Prop :=
  ∀ (w : CmdWord) (s : State), w.toNat / 2 ^ 60 = op → w &&& mbz = 0 → w.toNat / 2 ^ 58 % 4 = 3 →
    execWord w s = .next { s with resp := 0x80000003 }

/-- The command renders the LED outputs. -/
def isLedCommand : Instr → Bool
  | .ledset _ => true
  | .ledblink _ _ _ _ => true
  | .nop => false
  | .addsample _ _ => false
  | .isstable _ => false
  | .curval _ => false
  | .emit _ _ => false
  | .reset _ => false
  | .calib _ => false
  | .tick => false

/-- Execute commands in their serialisation order (R57, R231), stopping where one stops. -/
def runCommands : List Instr → State → Result
  | [], s => .next s
  | i :: is, s =>
    match exec i s with
    | .next t => runCommands is t
    | .fault f => .fault f
    | .refused r => .refused r

/-- No RESET in the list names the channel. -/
abbrev NoResetOf (k : ChanId) (is : List Instr) : Prop :=
  ∀ c : ChField, Instr.reset c ∈ is → channel? c ≠ some k

/-- A response of EMIT that carries a value: bit 16 set (R75). -/
def emittedNow (r : RespWord) : Bool := r.getLsbD 16

/-- The value an EMIT response carries, `highByte * 128 + lowByte` (R126). -/
def emittedValue (r : RespWord) : Value := (r.extractLsb' 8 7 ++ r.extractLsb' 0 7 : BitVec 14)

/-- What one executed command emitted on a channel: the value its response carries, or nothing. -/
def emissionOf (k : ChanId) (i : Instr) (r : RespWord) : List Value :=
  match i with
  | .emit c _ => if channel? c = some k ∧ emittedNow r = true then [emittedValue r] else []
  | _ => []

/-- The values emitted on a channel along a run, in order (R127). -/
def emissions (k : ChanId) : List Instr → State → List Value
  | [], _ => []
  | i :: is, s =>
    match exec i s with
    | .next t => emissionOf k i t.resp ++ emissions k is t
    | .fault _ => []
    | .refused _ => []

end Sys2Proof.Machine
end

