-- ==== Sys2Proof/Certificates/Slice0/Obligations.lean ====
section
/-! DEFINITION. The statements for the provers, each from the numbered rules of spec/ that its docstring cites. Their ids,
tiers, bases and quotes stand in OBLIGATIONS.json. -/

open Sys2Proof Sys2Proof.Machine

/-! ## Encoding and decoding -/

/-- The worked encodings of R84: each command encodes to its word and the word decodes to the command. -/
def Obligations.WorkedEncodingsOfTheSpec : Prop :=
  ∀ p ∈ ([(.nop, 0x0000000000000000), (.addsample 0 100, 0x1000000000000064), (.addsample 2 65535, 0x180000000000FFFF),
      (.isstable 1, 0x2400000000000000), (.curval 2, 0x3800000000000000), (.emit 1 500, 0x44000000000001F4),
      (.reset 0, 0x5000000000000000), (.calib 0, 0x6000000000000000), (.tick, 0x7000000000000000),
      (.ledset 0x7FF, 0x80000000000007FF), (.ledblink 0x008 0x01F 1250 500, 0x90007D013880F808)] : List (Instr × CmdWord)),
    encode p.1 = p.2 ∧ decodeWord p.2 = .command p.1

/-- R84: encoding is the inverse of decoding on instances; every operand value comes back. -/
def Obligations.DecodeOfEncodeIsTheCommand : Prop :=
  ∀ i : Instr, i.WellFormed → decodeWord (encode i) = .command i

/-- R84: every instance re-encodes to the word it was decoded from, and what decodes is well-formed. -/
def Obligations.EncodeOfDecodeIsTheWord : Prop :=
  ∀ (w : CmdWord) (i : Instr), decodeWord w = .command i → encode i = w ∧ i.WellFormed

/-- R78, R79, R80 and R182: the opcode test, then the must-be-zero test of the opcode's format, then the channel test, each
with its own cause, and a word that passes the three is a command. -/
def Obligations.DecodeTestsInOrder : Prop :=
  ∀ w : CmdWord,
    let op := w.toNat / 2 ^ 60
    let mbz : CmdWord :=
      if op = 0 ∨ op = 7 then 0x0FFFFFFFFFFFFFFF
      else if op = 2 ∨ op = 3 ∨ op = 5 ∨ op = 6 then 0x03FFFFFFFFFFFFFF
      else if op = 1 ∨ op = 4 then 0x03FFFFFFFFFF0000
      else if op = 8 then 0x0FFFFFFFFFFFF800
      else 0x0FC0000000000000
    let hasChannel := 1 ≤ op ∧ op ≤ 6
    (10 ≤ op → decodeWord w = .rejected .illegalOpcode) ∧
    (op < 10 → w &&& mbz ≠ 0 → decodeWord w = .rejected .reservedNonzero) ∧
    (op < 10 → w &&& mbz = 0 → hasChannel → w.toNat / 2 ^ 58 % 4 = 3 → decodeWord w = .rejected .illegalChannel) ∧
    (op < 10 → w &&& mbz = 0 → (hasChannel → w.toNat / 2 ^ 58 % 4 ≠ 3) → ∃ i, decodeWord w = .command i)

/-- R76: a word decodes to a command exactly when it is an instance of a row of the opcode table, and then of one row
only. -/
def Obligations.InstanceOfExactlyOneTableRow : Prop :=
  ∀ w : CmdWord,
    (opcodeTable.filter fun r => r.isInstanceWord w).length =
      match decodeWord w with
      | .command _ => 1
      | .rejected _ => 0

/-- R52, in a helper of the model's own (assumption log, entry 13): eight bytes, the most significant first, decode as
the word they spell, and what follows them is handed back. -/
def Obligations.BytesDecodeMostSignificantFirst : Prop :=
  ∀ (b7 b6 b5 b4 b3 b2 b1 b0 : BitVec 8) (rest : List (BitVec 8)) (w : CmdWord),
    w.toNat = ((((((b7.toNat * 256 + b6.toNat) * 256 + b5.toNat) * 256 + b4.toNat) * 256 + b3.toNat) * 256 +
      b2.toNat) * 256 + b1.toNat) * 256 + b0.toNat →
    decodeBytes (b7 :: b6 :: b5 :: b4 :: b3 :: b2 :: b1 :: b0 :: rest) = some (decodeWord w, rest)

/-! ## The step and the ports -/

/-- R53, R57, R71, in the model's form of the ports (assumption log, entries 1 and 4): when an agent is served and its
word decodes to a command, the step takes the word off the agent's port, executes the command, and gives the response to
that agent. -/
def Obligations.StepRunsTheDecodedCommand : Prop :=
  ∀ (s : State) (a : Agent) (w : CmdWord) (i : Instr),
    s.rst = false → s.arbitrate = some a → s.presented a = some w → decodeWord w = .command i →
    step s =
      match exec i (s.accept a) with
      | .next t => .next (t.deliver a)
      | .fault f => .fault f
      | .refused r => .refused r

/-- R180, in the model's form of the ports and of a rejection, a next state (assumption log, entries 1, 4 and 5): a rejected
command writes no register, and answers `0x80000000 + cause`, with `ERR` set, to the agent that
presented it; what the other agents present is untouched, so the next command is accepted normally. -/
def Obligations.IllegalWordIsRejected : Prop :=
  ∀ (s : State) (a : Agent) (w : CmdWord) (c : Cause),
    s.rst = false → s.arbitrate = some a → s.presented a = some w → decodeWord w = .rejected c →
    ∃ (t : State) (r : Response), step s = .next t ∧ SameRegisters s t ∧ t.rst = false ∧
      (∀ b, b ≠ a → t.presented b = s.presented b) ∧
      t.responses = s.responses ++ [r] ∧ r.agent = a ∧ r.err = true ∧
      r.word.toNat = 0x80000000 +
        (match c with
        | .illegalOpcode => 1
        | .reservedNonzero => 2
        | .illegalChannel => 3)

/-- R194, in the model's form of the ports (assumption log, entries 1 and 10): with no command presented and no reset,
the block is idle and holds its state. -/
def Obligations.IdleStepHoldsTheState : Prop :=
  ∀ s : State, s.rst = false → s.hostCmds = [] → s.samples = [] → s.ticks = 0 → step s = .next s

/-- R72, in the model's form of the ports (assumption log, entries 1 and 4): an S-port transaction is the command
ADDSAMPLE with its operands, `s_err` is the `ERR` bit of its response, and a T-port transaction is the command TICK,
which cannot be rejected. -/
def Obligations.PortTransactionsAreCommands : Prop :=
  (∀ (s : State) (x : Sample) (rest : List Sample), s.samples = x :: rest →
    s.presented .source = some (0x1#4 ++ x.ch ++ 0#42 ++ x.raw : BitVec 64) ∧
    s.presented .source = some (encode (.addsample x.ch x.raw))) ∧
  (∀ (s : State) (x : Sample) (rest : List Sample), s.rst = false → s.samples = x :: rest → s.arbitrate = some .source →
    ∃ (t : State) (r : Response), step s = .next t ∧ t.responses = s.responses ++ [r] ∧ r.agent = .source ∧
      r.err = (x.ch == 3)) ∧
  (∀ s : State, s.ticks ≠ 0 → s.presented .timebase = some 0x7000000000000000) ∧
  decodeWord 0x7000000000000000 = .command .tick

/-- R57, in the model's form of the ports (assumption log, entries 1 and 2): the agent served is one that presents a
command; a lone agent is served; the block idles only if no agent presents one. -/
def Obligations.ArbitrationServesAWaitingAgent : Prop :=
  ∀ s : State,
    (s.arbitrate = none ↔ ∀ a, s.presented a = none) ∧
    (∀ a, s.arbitrate = some a → (s.presented a).isSome = true) ∧
    (∀ a, (s.presented a).isSome = true → (∀ b, b ≠ a → s.presented b = none) → s.arbitrate = some a)

/-- R56, R232, in the model's form of the ports (assumption log, entry 1): a step that is not a reset serves one agent,
takes the oldest command of that agent alone, and gives exactly one response, to it; or no agent waits and nothing
changes. -/
def Obligations.OneResponsePerServedCommand : Prop :=
  ∀ s t : State, s.rst = false → step s = .next t →
    ((∀ a, s.presented a = none) ∧ t = s) ∨
    ∃ (a : Agent) (r : RespWord), (s.presented a).isSome = true ∧ t.responses = s.responses ++ [⟨a, r⟩] ∧
      t.hostCmds = (if a = .host then s.hostCmds.tail else s.hostCmds) ∧
      t.samples = (if a = .source then s.samples.tail else s.samples) ∧
      t.ticks = (if a = .timebase then s.ticks - 1 else s.ticks) ∧ t.rst = false

/-! ## Reset and invariants -/

/-- R35: every register's value in the state the machine starts from, after the reset input, and a channel's values after
RESET, which does not change `ledOut`. -/
def Obligations.EveryRegisterHasItsResetValue : Prop :=
  let fresh : Channel := { min := 0xFFFF, max := 0, win := [], enabled := false, last := 0, cd := 0 }
  ((∀ k, State.reset.chan k = fresh) ∧ State.reset.ledOut = 0) ∧
  (∀ (c : ChField) (k : ChanId) (s : State), channel? c = some k →
    ∃ t, exec (.reset c) s = .next t ∧ t.chan k = fresh ∧ t.ledOut = s.ledOut)

/-- R210 and R211, in the model's form of the ports and of the reset input (assumption log, entries 1 and 3): a step with
`rst` asserted gives every register its reset value, accepts no command, and drops, without a response, the command each port
presents. -/
def Obligations.ResetInputClearsAndDrops : Prop :=
  ∀ s : State, s.rst = true → ∃ t, step s = .next t ∧ t.rst = false ∧
    (∀ k, t.chan k = { min := 0xFFFF, max := 0, win := [], enabled := false, last := 0, cd := 0 }) ∧ t.ledOut = 0 ∧
    t.responses = s.responses ∧
    t.hostCmds = s.hostCmds.drop 1 ∧ t.samples = s.samples.drop 1 ∧ t.ticks = s.ticks - 1

/-- R141: RESET of the three channels and a dark LED mask leave the registers as the reset input does. -/
def Obligations.ThreeResetsAndDarkLedsMatchTheResetInput : Prop :=
  ∀ s : State, ∃ t, runCommands [.reset 0, .reset 1, .reset 2, .ledset 0] s = .next t ∧ SameRegisters s.resetInput t

/-- R27: the invariants hold at reset. -/
def Obligations.ResetStateMeetsTheInvariants : Prop := State.reset.Inv

/-- R27, R144: every step keeps the invariants; in particular an enabled channel has a full window. -/
def Obligations.EveryStepKeepsTheInvariants : Prop :=
  ∀ s t : State, s.Inv → step s = .next t → t.Inv

/-- R183, R60: in a state that meets the invariants every step answers a next state, whatever the agents present. -/
def Obligations.NoStepStopsTheMachine : Prop :=
  ∀ s : State, s.Inv → ∃ t, step s = .next t

/-- R123 and U4 of 93_implementation_defined.md, with the stop the model's own form of U4 (assumption log, entry 7): a
command stops only where the spec gives the median no value: CURVAL or
EMIT on an enabled channel whose window does not hold eight entries. -/
def Obligations.StopsOnlyOnTheMedianOfAPartialWindow : Prop :=
  ∀ (i : Instr) (s : State),
    (exec i s = .fault .medianUndefined ↔
      ∃ (c : ChField) (k : ChanId), (i = .curval c ∨ ∃ thr, i = .emit c thr) ∧ channel? c = some k ∧
        (s.chan k).enabled = true ∧ (s.chan k).cnt ≠ 8) ∧
    (exec i s = .fault .medianUndefined ∨ ∃ t, exec i s = .next t)

/-! ## What commands leave alone -/

/-- R36: NOP, ISSTABLE and CURVAL write nothing but the response, and so does any command that names no channel by its
channel field. -/
def Obligations.QueriesWriteNoRegister : Prop :=
  ∀ (i : Instr) (s t : State),
    (i = .nop ∨ (∃ c, i = .isstable c) ∨ (∃ c, i = .curval c) ∨ i.chField? = some 3) →
    exec i s = .next t → t = { s with resp := t.resp }

/-- R36, R100: ADDSAMPLE on channel `k` writes `min`, `max` and the window of `k` and nothing else but the response. -/
def Obligations.AddsampleFrame : Prop :=
  ∀ (c : ChField) (raw : Raw) (k : ChanId) (s t : State), channel? c = some k → exec (.addsample c raw) s = .next t →
    (t.chan k).enabled = (s.chan k).enabled ∧ (t.chan k).last = (s.chan k).last ∧ (t.chan k).cd = (s.chan k).cd ∧
    (∀ j, j ≠ k → t.chan j = s.chan j) ∧ t.ledOut = s.ledOut ∧ SameInterface s t

/-- R36, R126: EMIT on channel `k` writes `last` and `cd` of `k`, and them only when it emits, and nothing else but the
response. -/
def Obligations.EmitFrame : Prop :=
  ∀ (c : ChField) (thr : Ticks) (k : ChanId) (s t : State), channel? c = some k → exec (.emit c thr) s = .next t →
    (t.chan k).min = (s.chan k).min ∧ (t.chan k).max = (s.chan k).max ∧ (t.chan k).win = (s.chan k).win ∧
    (t.chan k).enabled = (s.chan k).enabled ∧ (emittedNow t.resp = false → t.chan k = s.chan k) ∧
    (∀ j, j ≠ k → t.chan j = s.chan j) ∧ t.ledOut = s.ledOut ∧ SameInterface s t

/-- R36: RESET writes its channel alone, CALIB the flag `enabled` of its channel alone, TICK the counters `cd` alone, and
the LED commands `ledOut` alone; each beside the response. -/
def Obligations.ControlAndLedFrames : Prop :=
  (∀ (c : ChField) (k : ChanId) (s t : State), channel? c = some k → exec (.reset c) s = .next t →
    (∀ j, j ≠ k → t.chan j = s.chan j) ∧ t.ledOut = s.ledOut ∧ SameInterface s t) ∧
  (∀ (c : ChField) (k : ChanId) (s t : State), channel? c = some k → exec (.calib c) s = .next t →
    t.chan k = { s.chan k with enabled := (t.chan k).enabled } ∧
    (∀ j, j ≠ k → t.chan j = s.chan j) ∧ t.ledOut = s.ledOut ∧ SameInterface s t) ∧
  (∀ s t : State, exec .tick s = .next t →
    (∀ k, t.chan k = { s.chan k with cd := (t.chan k).cd }) ∧ t.ledOut = s.ledOut ∧ SameInterface s t) ∧
  (∀ (i : Instr) (s t : State), isLedCommand i = true → exec i s = .next t →
    (∀ k, t.chan k = s.chan k) ∧ SameInterface s t)

/-- R20: a command of one channel neither reads nor writes another. What it answers and what it makes of its channel depend
on that channel's record alone, and no other channel and no LED changes. -/
def Obligations.ChannelCommandsSeeOnlyTheirChannel : Prop :=
  ∀ (i : Instr) (c : ChField) (k : ChanId) (s s' t : State), i.chField? = some c → channel? c = some k →
    s.chan k = s'.chan k → exec i s = .next t →
    (∃ t', exec i s' = .next t' ∧ t'.chan k = t.chan k ∧ t'.resp = t.resp) ∧
    (∀ j, j ≠ k → t.chan j = s.chan j) ∧ t.ledOut = s.ledOut

/-- R162, which the spec marks as its own inference ('Purity [derived: from rule R160 and rule R161]'): what an LED
command makes of `ledOut` and what it answers depend on the command alone; it writes no channel register, and no other
command writes `ledOut`. -/
def Obligations.LedCommandsArePure : Prop :=
  (∀ i : Instr, isLedCommand i = true → ∃ (m : Mask) (r : RespWord), ∀ s : State,
    exec i s = .next { s with ledOut := m, resp := r }) ∧
  (∀ (i : Instr) (s t : State), isLedCommand i = false → exec i s = .next t → t.ledOut = s.ledOut)

/-- R58 (c) and (d): `enabled`, `last` and `ledOut` are written by host commands alone, whatever the sample source and the
timebase present. -/
def Obligations.OnlyTheHostWritesEnabledLastAndLeds : Prop :=
  ∀ s t : State, s.rst = false → s.arbitrate ≠ some .host → step s = .next t →
    (∀ k, (t.chan k).enabled = (s.chan k).enabled ∧ (t.chan k).last = (s.chan k).last) ∧ t.ledOut = s.ledOut

/-- R58 (e), R222: along any commands that do not RESET the channel, its window never gets shorter and its range never
narrower. -/
def Obligations.RangeAndWindowOnlyGrow : Prop :=
  ∀ (k : ChanId) (is : List Instr) (s t : State), NoResetOf k is → runCommands is s = .next t →
    (s.chan k).cnt ≤ (t.chan k).cnt ∧ (t.chan k).min ≤ (s.chan k).min ∧ (s.chan k).max ≤ (t.chan k).max

/-- R193, R162: commands of two different channels commute: in either order the registers end the same and each command
answers the same. -/
def Obligations.CommandsOfDifferentChannelsCommute : Prop :=
  ∀ (i j : Instr) (c d : ChField) (k l : ChanId) (s t u : State),
    i.chField? = some c → j.chField? = some d → channel? c = some k → channel? d = some l → k ≠ l →
    exec i s = .next t → exec j t = .next u →
    ∃ t' u', exec j s = .next t' ∧ exec i t' = .next u' ∧ SameRegisters u u' ∧ t'.resp = u.resp ∧ u'.resp = t.resp

/-- R54: ISSTABLE, CURVAL, RESET, CALIB, LEDSET and LEDBLINK repeated immediately change nothing more and answer the
same. -/
def Obligations.RepeatedCommandsAreIdempotent : Prop :=
  ∀ (i : Instr) (s t : State),
    ((∃ c, i = .isstable c) ∨ (∃ c, i = .curval c) ∨ (∃ c, i = .reset c) ∨ (∃ c, i = .calib c) ∨
      isLedCommand i = true) →
    exec i s = .next t → exec i t = .next t

/-! ## The sample path -/

/-- R100: ADDSAMPLE expands the range, quantizes the sample against the expanded range, and pushes the value if there is
one; its word, and its rejections. -/
def Obligations.AddsampleResult : Prop :=
  (∀ (c : ChField) (raw : Raw) (k : ChanId) (s : State), channel? c = some k →
    exec (.addsample c raw) s = .next { s.setChan k
      { s.chan k with
        min := expandMin (s.chan k).min raw
        max := expandMax (s.chan k).max raw
        win := match quantize? (expandMin (s.chan k).min raw) (expandMax (s.chan k).max raw) raw with
          | none => (s.chan k).win
          | some v => push (s.chan k).win v } with resp := 0 }) ∧
  (∀ (c : ChField) (raw : Raw) (s : State), c ≠ 3 →
    execWord (0x1#4 ++ c ++ 0#42 ++ raw : BitVec 64) s = exec (.addsample c raw) s) ∧
  RejectsReserved 1 0x03FFFFFFFFFF0000 ∧ RejectsChannelThree 1 0x03FFFFFFFFFF0000

/-- R101, with the consequences it marks as its own inference ('Consequences [derived: from this rule]') and the ports, the
agent served and the reset input in the model's form (assumption log, entries 1, 2 and 3): Expand takes the sample in, never
shrinks the range, and on the empty range of reset sets both ends; no step but one that serves a RESET of the channel, or the
reset input, moves `min` up or `max` down. -/
def Obligations.ExpandTakesTheSampleIn : Prop :=
  (∀ (s t : State) (k : ChanId), step s = .next t →
    ((t.chan k).min ≤ (s.chan k).min ∧ (s.chan k).max ≤ (t.chan k).max) ∨ s.rst = true ∨
      ∃ (a : Agent) (w : CmdWord) (c : ChField), s.arbitrate = some a ∧ s.presented a = some w ∧
        decodeWord w = .command (.reset c) ∧ channel? c = some k) ∧
  ∀ mn mx raw : Raw,
    (expandMin mn raw).toNat = (if raw.toNat < mn.toNat then raw.toNat else mn.toNat) ∧
    (expandMax mx raw).toNat = (if mx.toNat < raw.toNat then raw.toNat else mx.toNat) ∧
    expandMin mn raw ≤ mn ∧ mx ≤ expandMax mx raw ∧ expandMin mn raw ≤ raw ∧ raw ≤ expandMax mx raw ∧
    expandMin mn raw ≤ expandMax mx raw ∧ expandMin 0xFFFF raw = raw ∧ expandMax 0 raw = raw

/-- R102: with a range of zero there is no value, and Quantize has one for every other range. The range is zero exactly
when the smallest and the largest sample agree. -/
def Obligations.ZeroRangeQuantizesToNothing : Prop :=
  ∀ mn mx raw : Raw, mn ≤ mx → (quantize? mn mx raw = none ↔ mx = mn)

/-- R103: the deadband, the clamp, the floor scaling and the inversion, on exact integers. -/
def Obligations.QuantizeFollowsTheFormula : Prop :=
  ∀ mn mx raw : Raw, mn ≤ raw → raw ≤ mx → mn < mx →
    ∃ q, quantize? mn mx raw = some q ∧
      let range := mx.toNat - mn.toNat
      let theta := range / 128
      let off := raw.toNat - mn.toNat
      let cl := if off < theta then 0 else if off > range - theta then range else off
      q.toNat = 16383 - cl * 16383 / range

/-- R106 (b), (d), (e) and (f): the extremes quantize to 0 and 16383, a range below 128 has no deadband, and the value
never rises with the sample. -/
def Obligations.QuantizeIsMonotoneWithFixedExtremes : Prop :=
  ∀ mn mx : Raw, mn < mx →
    quantize? mn mx mx = some 0 ∧ quantize? mn mx mn = some 16383 ∧
    (∀ raw : Raw, mn ≤ raw → raw ≤ mx → mx.toNat - mn.toNat < 128 →
      ∃ q, quantize? mn mx raw = some q ∧
        q.toNat = 16383 - (raw.toNat - mn.toNat) * 16383 / (mx.toNat - mn.toNat)) ∧
    (∀ (raw raw' : Raw) (q q' : Value), mn ≤ raw → raw ≤ raw' → raw' ≤ mx →
      quantize? mn mx raw = some q → quantize? mn mx raw' = some q' → q' ≤ q)

/-- R104: a push fills the next position of a window that is not full, and shifts a full one by one position, losing the
oldest entry. -/
def Obligations.PushIsFirstInFirstOut : Prop :=
  ∀ (win : List Value) (v : Value),
    (win.length < 8 → (push win v).length = win.length + 1 ∧ (push win v)[win.length]? = some v ∧
      ∀ i, i < win.length → (push win v)[i]? = win[i]?) ∧
    (win.length = 8 → (push win v).length = 8 ∧ (push win v)[7]? = some v ∧
      ∀ i, i < 7 → (push win v)[i]? = win[i + 1]?)

/-! ## Window functions -/

/-- R120: Full says that the count is eight, and, as the sentence 'Equivalently, Stable(c) holds iff' infers from R121 and
R122, Stable that all eight entries are equal. -/
def Obligations.StableMeansEightEqualEntries : Prop :=
  ∀ win : List Value,
    (full win = true ↔ win.length = 8) ∧
    (stable win = true ↔ win.length = 8 ∧ ∃ v, ∀ x ∈ win, x = v)

/-- R121, R122: Highest is the largest entry and Lowest the smallest, on every window with an entry. -/
def Obligations.HighestAndLowestAreTheExtremes : Prop :=
  ∀ win : List Value, win ≠ [] →
    ∃ h l : Value, highest? win = some h.toNat ∧ lowest? win = some l.toNat ∧ h ∈ win ∧ l ∈ win ∧
      ∀ x ∈ win, l ≤ x ∧ x ≤ h

/-- R123: Median is the floor of the mean of the fourth and fifth entries in non-decreasing order. As the sentence
'Consequences [derived: from this rule]' infers from it, it lies between Lowest and Highest, is the common value of a stable
window, and does not depend on the order of the entries. On a window that is not full it has no value, in the model's own form
of R123 and U4 (assumption log, entry 7). -/
def Obligations.MedianIsTheFloorOfTheMiddleMean : Prop :=
  ∀ win : List Value,
    (win.length ≠ 8 → median? win = none) ∧
    (win.length = 8 → ∃ m, median? win = some m ∧
      (∀ l : List Nat, l.Perm (win.map BitVec.toNat) → l.Pairwise (· ≤ ·) → m.toNat = (l.getD 3 0 + l.getD 4 0) / 2) ∧
      (∀ h l, highest? win = some h → lowest? win = some l → l ≤ m.toNat ∧ m.toNat ≤ h) ∧
      (stable win = true → ∀ x ∈ win, x = m) ∧
      (∀ win' : List Value, win'.Perm win → median? win' = some m))

/-! ## Queries and emission -/

/-- R124: ISSTABLE answers 1 on a stable channel and 0 on any other, and writes no register; its word, and its
rejections. -/
def Obligations.IsstableResult : Prop :=
  (∀ (c : ChField) (k : ChanId) (s : State), channel? c = some k →
    exec (.isstable c) s = .next { s with resp := if stable (s.chan k).win then 1 else 0 }) ∧
  (∀ (c : ChField) (s : State), c ≠ 3 → execWord (0x2#4 ++ c ++ 0#58 : BitVec 64) s = exec (.isstable c) s) ∧
  RejectsReserved 2 0x03FFFFFFFFFFFFFF ∧ RejectsChannelThree 2 0x03FFFFFFFFFFFFFF

/-- R125: CURVAL answers the median of an enabled channel and 0 for any other, never more than 16383, and writes no
register; its word, and its rejections. -/
def Obligations.CurvalResult : Prop :=
  (∀ (c : ChField) (k : ChanId) (s : State), channel? c = some k → (s.chan k).enabled = false →
    exec (.curval c) s = .next { s with resp := 0 }) ∧
  (∀ (c : ChField) (k : ChanId) (s : State), channel? c = some k → (s.chan k).enabled = true → (s.chan k).cnt = 8 →
    ∃ m, median? (s.chan k).win = some m ∧ m.toNat ≤ 16383 ∧
      exec (.curval c) s = .next { s with resp := BitVec.ofNat 32 m.toNat }) ∧
  (∀ (c : ChField) (s : State), c ≠ 3 → execWord (0x3#4 ++ c ++ 0#58 : BitVec 64) s = exec (.curval c) s) ∧
  RejectsReserved 3 0x03FFFFFFFFFFFFFF ∧ RejectsChannelThree 3 0x03FFFFFFFFFFFFFF

/-- R126: EMIT on an enabled channel whose median differs from the last value and whose cooldown has reached the threshold
records the value, restarts the cooldown and answers the two bytes; otherwise it answers 0 and writes no register; its word,
and its rejections. -/
def Obligations.EmitResult : Prop :=
  (∀ (c : ChField) (thr : Ticks) (k : ChanId) (s : State), channel? c = some k → (s.chan k).enabled = false →
    exec (.emit c thr) s = .next { s with resp := 0 }) ∧
  (∀ (c : ChField) (thr : Ticks) (k : ChanId) (s : State), channel? c = some k → (s.chan k).enabled = true →
    (s.chan k).cnt = 8 →
    ∃ m, median? (s.chan k).win = some m ∧
      exec (.emit c thr) s = .next
        (if m ≠ (s.chan k).last ∧ thr ≤ (s.chan k).cd then
          { s.setChan k { s.chan k with last := m, cd := 0 } with
            resp := BitVec.ofNat 32 (0x10000 + m.toNat / 128 * 256 + m.toNat % 128) }
        else { s with resp := 0 })) ∧
  (∀ (c : ChField) (thr : Ticks) (s : State), c ≠ 3 →
    execWord (0x4#4 ++ c ++ 0#42 ++ thr : BitVec 64) s = exec (.emit c thr) s) ∧
  RejectsReserved 4 0x03FFFFFFFFFF0000 ∧ RejectsChannelThree 4 0x03FFFFFFFFFF0000

/-- R75, R183: a well-formed command that answers a next state answers a word with `ERR` clear and bits 30:17 zero. -/
def Obligations.CompletedResponsesHaveErrClear : Prop :=
  ∀ (i : Instr) (s t : State), i.WellFormed → exec i s = .next t → t.resp.toNat < 2 ^ 17

/-! ## Control commands -/

/-- R140: RESET gives its channel its initial condition and leaves the rest; its word, and its rejections. -/
def Obligations.ResetResult : Prop :=
  (∀ (c : ChField) (k : ChanId) (s : State), channel? c = some k →
    exec (.reset c) s = .next { s.setChan k
      { min := 0xFFFF, max := 0, win := [], enabled := false, last := 0, cd := 0 } with resp := 0 }) ∧
  (∀ (c : ChField) (s : State), c ≠ 3 → execWord (0x5#4 ++ c ++ 0#58 : BitVec 64) s = exec (.reset c) s) ∧
  RejectsReserved 5 0x03FFFFFFFFFFFFFF ∧ RejectsChannelThree 5 0x03FFFFFFFFFFFFFF

/-- R143: CALIB assigns `enabled` from the stability of the window; its word, and its rejections. -/
def Obligations.CalibResult : Prop :=
  (∀ (c : ChField) (k : ChanId) (s : State), channel? c = some k →
    exec (.calib c) s = .next { s.setChan k
      { s.chan k with enabled := stable (s.chan k).win } with resp := 0 }) ∧
  (∀ (c : ChField) (s : State), c ≠ 3 → execWord (0x6#4 ++ c ++ 0#58 : BitVec 64) s = exec (.calib c) s) ∧
  RejectsReserved 6 0x03FFFFFFFFFFFFFF ∧ RejectsChannelThree 6 0x03FFFFFFFFFFFFFF

/-- R146: TICK advances the cooldown of all three channels by one, saturating at 0xFFFF; its word, and its rejections. -/
def Obligations.TickResult : Prop :=
  (∀ s : State, ∃ t, exec .tick s = .next t ∧ t.resp = 0 ∧ t.ledOut = s.ledOut ∧
    ∀ k, t.chan k = { s.chan k with cd := BitVec.ofNat 16 (min ((s.chan k).cd.toNat + 1) 0xFFFF) }) ∧
  (∀ s : State, execWord 0x7000000000000000 s = exec .tick s) ∧
  RejectsReserved 7 0x0FFFFFFFFFFFFFFF

/-- R148: NOP answers 0 and changes no register; its word, and its rejections. -/
def Obligations.NopResult : Prop :=
  (∀ s : State, exec .nop s = .next { s with resp := 0 }) ∧
  (∀ s : State, execWord 0 s = exec .nop s) ∧
  RejectsReserved 0 0x0FFFFFFFFFFFFFFF

/-- R77, R80, R180: the channel fields 0, 1 and 2 name the three channels, and a command whose channel field is 3 changes no
register and answers `0x80000003`. -/
def Obligations.ChannelFieldsAndTheFourthCode : Prop :=
  (channel? 0 = some .c0 ∧ channel? 1 = some .c1 ∧ channel? 2 = some .c2) ∧
  ∀ (i : Instr) (s : State), i.chField? = some 3 → exec i s = .next { s with resp := 0x80000003 }

/-! ## The LED renderer -/

/-- R160: LEDSET puts the mask on the eleven outputs, output `i` on exactly if bit `i` is set, and answers the mask; its
word, and its rejections. -/
def Obligations.LedsetResult : Prop :=
  (∀ (mask : Mask) (s : State), ∃ t, exec (.ledset mask) s = .next t ∧
    t = { s with ledOut := mask, resp := BitVec.ofNat 32 mask.toNat } ∧
    ∀ i : Fin 11, t.led i = mask.toNat.testBit i) ∧
  (∀ (mask : Mask) (s : State), execWord (0x8#4 ++ 0#49 ++ mask : BitVec 64) s = exec (.ledset mask) s) ∧
  RejectsReserved 8 0x0FFFFFFFFFFFF800

/-- R161: LEDBLINK shows `maskA` in the even half-periods and `maskB` in the odd ones, and `maskA` for a half-period of
0; its word, and its rejections. -/
def Obligations.LedblinkResult : Prop :=
  (∀ (maskA maskB : Mask) (elapsed half : Ticks) (s : State),
    let m := if half = 0 then maskA else if elapsed.toNat / half.toNat % 2 = 0 then maskA else maskB
    exec (.ledblink maskA maskB elapsed half) s = .next { s with ledOut := m, resp := BitVec.ofNat 32 m.toNat }) ∧
  (∀ (maskA maskB : Mask) (elapsed half : Ticks) (s : State),
    execWord (0x9#4 ++ 0#6 ++ half ++ elapsed ++ maskB ++ maskA : BitVec 64) s =
      exec (.ledblink maskA maskB elapsed half) s) ∧
  RejectsReserved 9 0x0FC0000000000000

/-! ## Runs -/

/-- R60, R71, R232, in the model's form of the ports (assumption log, entry 1): from a state that meets the invariants, with
`rst` released, as many steps as there are commands presented answer every one of them, each agent getting one response for
each of its own. -/
def Obligations.EveryPresentedCommandIsAnswered : Prop :=
  ∀ s : State, s.Inv → s.rst = false →
    ∃ t : State, Host.Core.run Sys2Proof.core (s.hostCmds.length + s.samples.length + s.ticks) s = .next t ∧
      t.hostCmds = [] ∧ t.samples = [] ∧ t.ticks = 0 ∧
      (t.responses.countP fun r => r.agent == .host) =
        (s.responses.countP fun r => r.agent == .host) + s.hostCmds.length ∧
      (t.responses.countP fun r => r.agent == .source) =
        (s.responses.countP fun r => r.agent == .source) + s.samples.length ∧
      (t.responses.countP fun r => r.agent == .timebase) =
        (s.responses.countP fun r => r.agent == .timebase) + s.ticks

/-- R127 (a): on a channel that is not reset, no two consecutive emissions carry the same value, and the first differs from
the last value recorded before the run. -/
def Obligations.ConsecutiveEmissionsDiffer : Prop :=
  ∀ (k : ChanId) (is : List Instr) (s : State), NoResetOf k is →
    List.IsChain (· ≠ ·) ((s.chan k).last :: emissions k is s)

/-- R127 (b): between an emission and a later one made with threshold `thr2`, with no RESET of the channel between them, at
least `thr2` TICK commands are executed. -/
def Obligations.EmissionsAreAtLeastTheThresholdApart : Prop :=
  ∀ (k : ChanId) (c d : ChField) (thr1 thr2 : Ticks) (is : List Instr) (s t u v : State),
    channel? c = some k → channel? d = some k → NoResetOf k is →
    exec (.emit c thr1) s = .next t → emittedNow t.resp = true →
    runCommands is t = .next u →
    exec (.emit d thr2) u = .next v → emittedNow v.resp = true →
    thr2.toNat ≤ is.count .tick

/-- R127 (d): an emission carries the median of the window at that step, split into two seven-bit bytes. -/
def Obligations.EmissionsCarryTheMedian : Prop :=
  ∀ (c : ChField) (thr : Ticks) (k : ChanId) (s t : State), channel? c = some k → exec (.emit c thr) s = .next t →
    emittedNow t.resp = true →
    median? (s.chan k).win = some (emittedValue t.resp) ∧
      t.resp.toNat / 256 % 256 ≤ 127 ∧ t.resp.toNat % 256 ≤ 127 ∧
      (emittedValue t.resp).toNat = t.resp.toNat / 256 % 256 * 128 + t.resp.toNat % 256

/-- R220: with no TICK a cooldown of 0 stays 0, and every EMIT with a threshold above 0 answers nothing. -/
def Obligations.NoTicksNoEmission : Prop :=
  ∀ (k : ChanId) (c : ChField) (thr : Ticks) (is : List Instr) (s t u : State),
    Instr.tick ∉ is → (s.chan k).cd = 0 → runCommands is s = .next t →
    channel? c = some k → thr ≠ 0 → exec (.emit c thr) t = .next u →
    (t.chan k).cd = 0 ∧ u = { t with resp := 0 }

/-- R146, R191: the cooldown after `n` TICK commands, saturating at 0xFFFF. -/
def Obligations.TicksCountUpToSaturation : Prop :=
  ∀ (n : Nat) (s : State), ∃ t, runCommands (List.replicate n .tick) s = .next t ∧
    ∀ k, (t.chan k).cd.toNat = min ((s.chan k).cd.toNat + n) 0xFFFF

/-- R106 (g) with the precondition of C1: eight identical samples, with a range that is not zero after the first, make the
channel stable, and its median is the value of that sample. -/
def Obligations.EightIdenticalSamplesMakeStable : Prop :=
  ∀ (c : ChField) (k : ChanId) (raw : Raw) (s : State), channel? c = some k → (s.chan k).cnt ≤ 8 →
    expandMin (s.chan k).min raw ≠ expandMax (s.chan k).max raw →
    ∃ t q, runCommands (List.replicate 8 (.addsample c raw)) s = .next t ∧
      quantize? (expandMin (s.chan k).min raw) (expandMax (s.chan k).max raw) raw = some q ∧
      (t.chan k).win = List.replicate 8 q ∧ stable (t.chan k).win = true ∧ median? (t.chan k).win = some q

/-- R107, R102: a fresh channel that is only ever given one raw value never fills its window and is never enabled: CURVAL on
it answers 0 and EMIT answers nothing, whatever else is executed. -/
def Obligations.ConstantInputNeverBecomesReady : Prop :=
  ∀ (k : ChanId) (raw : Raw) (is : List Instr) (s t : State),
    s.chan k = State.reset.chan k →
    (∀ c r, Instr.addsample c r ∈ is → channel? c = some k → r = raw) →
    runCommands is s = .next t →
    (t.chan k).win = [] ∧ (t.chan k).enabled = false ∧
      ∀ c, channel? c = some k → exec (.curval c) t = .next { t with resp := 0 } ∧
        ∀ thr, exec (.emit c thr) t = .next { t with resp := 0 }
end

