-- ==== Sys2Proof/Laws/Channel.lean ====
section
/-! SUPPORT. The small lemmas of every update of a channel record: one for each field (41_query_emit.md rule R126, 42_control.md
rules R140, R143 and R146). -/

namespace Sys2Proof.Machine

@[simp] theorem emitted_min (ch : Channel) (m : Value) : (ch.emitted m).min = ch.min := rfl

@[simp] theorem emitted_max (ch : Channel) (m : Value) : (ch.emitted m).max = ch.max := rfl

@[simp] theorem emitted_win (ch : Channel) (m : Value) : (ch.emitted m).win = ch.win := rfl

@[simp] theorem emitted_enabled (ch : Channel) (m : Value) : (ch.emitted m).enabled = ch.enabled := rfl

@[simp] theorem emitted_last (ch : Channel) (m : Value) : (ch.emitted m).last = m := rfl

@[simp] theorem emitted_cd (ch : Channel) (m : Value) : (ch.emitted m).cd = 0 := rfl

@[simp] theorem calibrated_min (ch : Channel) : (ch.calibrated).min = ch.min := rfl

@[simp] theorem calibrated_max (ch : Channel) : (ch.calibrated).max = ch.max := rfl

@[simp] theorem calibrated_win (ch : Channel) : (ch.calibrated).win = ch.win := rfl

@[simp] theorem calibrated_enabled (ch : Channel) : (ch.calibrated).enabled = stable ch.win := rfl

@[simp] theorem calibrated_last (ch : Channel) : (ch.calibrated).last = ch.last := rfl

@[simp] theorem calibrated_cd (ch : Channel) : (ch.calibrated).cd = ch.cd := rfl

@[simp] theorem ticked_min (ch : Channel) : (ch.ticked).min = ch.min := rfl

@[simp] theorem ticked_max (ch : Channel) : (ch.ticked).max = ch.max := rfl

@[simp] theorem ticked_win (ch : Channel) : (ch.ticked).win = ch.win := rfl

@[simp] theorem ticked_enabled (ch : Channel) : (ch.ticked).enabled = ch.enabled := rfl

@[simp] theorem ticked_last (ch : Channel) : (ch.ticked).last = ch.last := rfl

@[simp] theorem ticked_cd (ch : Channel) : (ch.ticked).cd = tickCd ch.cd := rfl

@[simp] theorem fresh_min : Channel.fresh.min = 0xFFFF := rfl

@[simp] theorem fresh_max : Channel.fresh.max = 0 := rfl

@[simp] theorem fresh_win : Channel.fresh.win = [] := rfl

@[simp] theorem fresh_enabled : Channel.fresh.enabled = false := rfl

@[simp] theorem fresh_last : Channel.fresh.last = 0 := rfl

@[simp] theorem fresh_cd : Channel.fresh.cd = 0 := rfl

/-- One more tick as a number (R146). -/
theorem tickCd_toNat (cd : Ticks) : (tickCd cd).toNat = min (cd.toNat + 1) 0xFFFF := by
  have hlt := cd.isLt
  unfold tickCd
  split
  · rename_i h
    rw [h]
    rfl
  · rename_i h
    have hne : cd.toNat ≠ 0xFFFF := fun hc => h (BitVec.eq_of_toNat_eq hc)
    rw [BitVec.toNat_add, show (1 : Ticks).toNat = 1 from rfl]
    omega

end Sys2Proof.Machine
end

