-- ==== Sys2Proof/Laws/Config.lean ====
section
/-! SUPPORT. The parameters' values (00_scope.md rule R6), so that no proof unfolds the record. -/

namespace Sys2Proof

@[simp] theorem params_win : params.win = 8 := rfl
@[simp] theorem params_outMax : params.outMax = 16383 := rfl
@[simp] theorem params_thetaShift : params.thetaShift = 7 := rfl
@[simp] theorem params_minInit : params.minInit = 0xFFFF := rfl
@[simp] theorem params_maxInit : params.maxInit = 0 := rfl
@[simp] theorem params_cdMax : params.cdMax = 0xFFFF := rfl
@[simp] theorem params_lastInit : params.lastInit = 0 := rfl

end Sys2Proof
end

