-- ==== Sys2Proof/Laws/Decode.lean ====
section
/-! SUPPORT. Lemmas about words and their fields: concatenation as arithmetic, the must-be-zero masks as arithmetic, and the
fields of an encoded command (30_encoding.md rules R74, R77 and R84). -/

namespace Sys2Proof

/-- Concatenation as arithmetic: the first operand stands above the second (R9). -/
theorem toNat_append_mul {v n : Nat} (x : BitVec v) (y : BitVec n) :
    (x ++ y).toNat = x.toNat * 2 ^ n + y.toNat := by
  rw [BitVec.toNat_append, ← Nat.shiftLeft_add_eq_or_of_lt y.isLt, Nat.shiftLeft_eq]

/-- The opcode field is the word's top four bits. -/
theorem fieldOp_toNat (w : CmdWord) : (fieldOp w).toNat = w.toNat / 2 ^ 60 := by
  have := w.isLt
  simp only [fieldOp, BitVec.extractLsb'_toNat, Nat.shiftRight_eq_div_pow]
  omega

/-- The channel field is bits 59:58. -/
theorem fieldCh_toNat (w : CmdWord) : (fieldCh w).toNat = w.toNat / 2 ^ 58 % 4 := by
  simp only [fieldCh, BitVec.extractLsb'_toNat, Nat.shiftRight_eq_div_pow]

/-! ## The word of each command as a number -/

theorem encode_nop_toNat : (encode .nop).toNat = 0 := rfl

theorem encode_addsample_toNat (c : ChField) (raw : Raw) :
    (encode (.addsample c raw)).toNat = 0x1000000000000000 + c.toNat * 2 ^ 58 + raw.toNat := by
  simp only [encode, toNat_append_mul, BitVec.toNat_ofNat]
  omega

theorem encode_isstable_toNat (c : ChField) :
    (encode (.isstable c)).toNat = 0x2000000000000000 + c.toNat * 2 ^ 58 := by
  simp only [encode, toNat_append_mul, BitVec.toNat_ofNat]
  omega

theorem encode_curval_toNat (c : ChField) :
    (encode (.curval c)).toNat = 0x3000000000000000 + c.toNat * 2 ^ 58 := by
  simp only [encode, toNat_append_mul, BitVec.toNat_ofNat]
  omega

theorem encode_emit_toNat (c : ChField) (thr : Ticks) :
    (encode (.emit c thr)).toNat = 0x4000000000000000 + c.toNat * 2 ^ 58 + thr.toNat := by
  simp only [encode, toNat_append_mul, BitVec.toNat_ofNat]
  omega

theorem encode_reset_toNat (c : ChField) :
    (encode (.reset c)).toNat = 0x5000000000000000 + c.toNat * 2 ^ 58 := by
  simp only [encode, toNat_append_mul, BitVec.toNat_ofNat]
  omega

theorem encode_calib_toNat (c : ChField) :
    (encode (.calib c)).toNat = 0x6000000000000000 + c.toNat * 2 ^ 58 := by
  simp only [encode, toNat_append_mul, BitVec.toNat_ofNat]
  omega

theorem encode_tick_toNat : (encode .tick).toNat = 0x7000000000000000 := rfl

theorem encode_ledset_toNat (mask : Mask) :
    (encode (.ledset mask)).toNat = 0x8000000000000000 + mask.toNat := by
  simp only [encode, toNat_append_mul, BitVec.toNat_ofNat]
  omega

theorem encode_ledblink_toNat (maskA maskB : Mask) (elapsed half : Ticks) :
    (encode (.ledblink maskA maskB elapsed half)).toNat =
      0x9000000000000000 + half.toNat * 2 ^ 38 + elapsed.toNat * 2 ^ 22 + maskB.toNat * 2 ^ 11 + maskA.toNat := by
  simp only [encode, toNat_append_mul, BitVec.toNat_ofNat]
  omega

/-! ## The must-be-zero masks as arithmetic -/

/-- Masking a word with a block of ones tests the bits of that block. -/
theorem and_block_eq_zero_iff (w : CmdWord) (lo len : Nat) (h : lo + len ≤ 64) :
    w &&& BitVec.ofNat 64 ((2 ^ len - 1) * 2 ^ lo) = 0 ↔ w.toNat / 2 ^ lo % 2 ^ len = 0 := by
  have hb : ∀ i, i < 64 → (BitVec.ofNat 64 ((2 ^ len - 1) * 2 ^ lo)).getLsbD i = (decide (lo ≤ i) && decide (i < lo + len)) := by
    intro i hi
    rw [BitVec.getLsbD_ofNat, Nat.testBit_mul_two_pow, Nat.testBit_two_pow_sub_one]
    by_cases h1 : lo ≤ i
    · simp only [hi, h1, decide_true, Bool.true_and]
      exact decide_eq_decide.mpr (by omega)
    · simp [h1]
  constructor
  · intro hz
    apply Nat.eq_of_testBit_eq
    intro j
    rw [Nat.testBit_mod_two_pow, Nat.testBit_div_two_pow, Nat.zero_testBit]
    by_cases hj : j < len
    · have h1 := congrArg (fun x => BitVec.getLsbD x (j + lo)) hz
      simp only [BitVec.getLsbD_and, hb (j + lo) (by omega)] at h1
      simpa [hj, Nat.add_comm j lo, BitVec.getLsbD] using h1
    · simp [hj]
  · intro hz
    apply BitVec.eq_of_getLsbD_eq
    intro i hi
    rw [BitVec.getLsbD_and, hb i hi]
    by_cases h1 : lo ≤ i ∧ i < lo + len
    · have h2 := congrArg (fun x => x.testBit (i - lo)) hz
      simp only [Nat.testBit_mod_two_pow, Nat.testBit_div_two_pow, Nat.zero_testBit] at h2
      rw [Nat.sub_add_cancel h1.1] at h2
      have h3 : i - lo < len := by omega
      simp only [h3, decide_true, Bool.true_and] at h2
      simp [BitVec.getLsbD, h2]
    · rcases Nat.lt_or_ge i lo with h2 | h2
      · simp [Nat.not_le.mpr h2]
      · simp [show ¬ i < lo + len by omega]

/-- The must-be-zero test of each format as a test of the bits rule R74 marks `0`. -/
theorem and_mbz_eq_zero_iff (w : CmdWord) (f : Format) :
    w &&& f.mbz = 0 ↔
      match f with
      | .n => w.toNat / 2 ^ 0 % 2 ^ 60 = 0
      | .c => w.toNat / 2 ^ 0 % 2 ^ 58 = 0
      | .s => w.toNat / 2 ^ 16 % 2 ^ 42 = 0
      | .m => w.toNat / 2 ^ 11 % 2 ^ 49 = 0
      | .b => w.toNat / 2 ^ 54 % 2 ^ 6 = 0 := by
  cases f
  · exact and_block_eq_zero_iff w 0 60 (by omega)
  · exact and_block_eq_zero_iff w 0 58 (by omega)
  · exact and_block_eq_zero_iff w 16 42 (by omega)
  · exact and_block_eq_zero_iff w 11 49 (by omega)
  · exact and_block_eq_zero_iff w 54 6 (by omega)

/-! ## The decode procedure -/

/-- A command comes from its opcode's row, with every must-be-zero bit clear and a channel field that is not 3. -/
theorem decodeWord_eq_command_iff (w : CmdWord) (i : Instr) :
    decodeWord w = .command i ↔
      ∃ f, opcodeRow? (fieldOp w) w = some (f, i) ∧ w &&& f.mbz = 0 ∧ (f.hasChannel = true → fieldCh w ≠ 3) := by
  unfold decodeWord
  cases h : opcodeRow? (fieldOp w) w with
  | none => simp
  | some p =>
    obtain ⟨f, j⟩ := p
    by_cases hz : w &&& f.mbz = 0
    · by_cases hc : f.hasChannel = true ∧ fieldCh w = 3
      · simp only [hz, ne_eq, not_true_eq_false, if_false, hc, and_self, if_true, reduceCtorEq, false_iff]
        rintro ⟨g, hg, -, h3⟩
        cases hg
        exact h3 hc.1
      · simp only [hz, ne_eq, not_true_eq_false, if_false, hc, Decoded.command.injEq]
        constructor
        · rintro rfl
          exact ⟨f, rfl, hz, fun h1 h2 => hc ⟨h1, h2⟩⟩
        · rintro ⟨g, hg, -, -⟩
          cases hg
          rfl
    · simp only [ne_eq, hz, not_false_eq_true, if_true, reduceCtorEq, false_iff]
      rintro ⟨g, hg, h0, -⟩
      cases hg
      exact hz h0

/-- Every opcode below 0xA has a row (R76). -/
theorem opcodeRow?_isSome_iff (w : CmdWord) : (opcodeRow? (fieldOp w) w).isSome = true ↔ w.toNat / 2 ^ 60 < 10 := by
  have hlt : w.toNat / 2 ^ 60 < 16 := by
    have := w.isLt
    omega
  rw [opcodeRow?, fieldOp_toNat]
  generalize w.toNat / 2 ^ 60 = n at *
  interval_cases n <;> simp

/-! ## The rows of the opcode table -/

/-- Masking with the opcode field and a mask below it tests the opcode and that mask apart. -/
theorem and_rowMask_eq_iff (w : CmdWord) {k lo : Nat} (hk : k < 16) (hlo : lo < 2 ^ 60) :
    w &&& (0xF000000000000000 ||| BitVec.ofNat 64 lo) = BitVec.ofNat 64 (k * 2 ^ 60) ↔
      w.toNat / 2 ^ 60 = k ∧ w &&& BitVec.ofNat 64 lo = 0 := by
  have hF : (0xF000000000000000 : CmdWord) = BitVec.ofNat 64 ((2 ^ 4 - 1) * 2 ^ 60) := by decide
  have hl : ∀ i, i < 64 → (w &&& (0xF000000000000000 ||| BitVec.ofNat 64 lo)).getLsbD i =
      if 60 ≤ i then w.getLsbD i else (w &&& BitVec.ofNat 64 lo).getLsbD i := by
    intro i hi
    have h0 : (BitVec.ofNat 64 lo).getLsbD i = lo.testBit i := by
      rw [BitVec.getLsbD_ofNat]
      simp [hi]
    rw [BitVec.getLsbD_and, BitVec.getLsbD_or, BitVec.getLsbD_and, hF, BitVec.getLsbD_ofNat,
      Nat.testBit_mul_two_pow, Nat.testBit_two_pow_sub_one, h0]
    by_cases h : 60 ≤ i
    · simp [h, hi, show i - 60 < 4 by omega]
    · simp [h]
  have hr : ∀ i, i < 64 → (BitVec.ofNat 64 (k * 2 ^ 60)).getLsbD i = (decide (60 ≤ i) && k.testBit (i - 60)) := by
    intro i hi
    rw [BitVec.getLsbD_ofNat, Nat.testBit_mul_two_pow]
    simp [hi]
  have hw : ∀ j, (w.toNat / 2 ^ 60).testBit j = w.getLsbD (j + 60) := by
    intro j
    rw [Nat.testBit_div_two_pow]
    rfl
  constructor
  · intro h
    constructor
    · apply Nat.eq_of_testBit_eq
      intro j
      rw [hw]
      by_cases hj : j < 4
      · have ha := hl (j + 60) (by omega)
        rw [h, hr _ (by omega)] at ha
        simp only [Nat.le_add_left, decide_true, Nat.add_sub_cancel, Bool.true_and, if_true] at ha
        exact ha.symm
      · rw [BitVec.getLsbD_of_ge _ _ (by omega)]
        have : 2 ^ 4 ≤ 2 ^ j := Nat.pow_le_pow_right (by omega) (by omega)
        exact (Nat.testBit_lt_two_pow (by omega)).symm
    · apply BitVec.eq_of_getLsbD_eq
      intro i hi
      by_cases h6 : 60 ≤ i
      · have hz : lo.testBit i = false :=
          Nat.testBit_lt_two_pow (lt_of_lt_of_le hlo (Nat.pow_le_pow_right (by omega) h6))
        rw [BitVec.getLsbD_and, BitVec.getLsbD_ofNat, hz]
        simp
      · have ha := hl i hi
        rw [h, hr i hi, if_neg h6] at ha
        rw [← ha]
        simp [h6]
  · rintro ⟨h1, h2⟩
    apply BitVec.eq_of_getLsbD_eq
    intro i hi
    rw [hl i hi, hr i hi, h2]
    by_cases h6 : 60 ≤ i
    · rw [if_pos h6, ← h1, hw]
      simp [h6, Nat.sub_add_cancel h6]
    · simp [h6]

/-- An instance of a row has the row's opcode, no must-be-zero bit and, where it has a channel field, not 3 in it (R76). -/
theorem isInstanceWord_iff (w : CmdWord) {k : Nat} (f : Format) (hk : k < 16) :
    TableRow.isInstanceWord ⟨BitVec.ofNat 64 (k * 2 ^ 60), 0xF000000000000000 ||| f.mbz, f⟩ w = true ↔
      w.toNat / 2 ^ 60 = k ∧ w &&& f.mbz = 0 ∧ (f.hasChannel = true → fieldCh w ≠ 3) := by
  have h := and_rowMask_eq_iff w hk (lo := f.mbz.toNat) (by cases f <;> decide)
  rw [BitVec.ofNat_toNat, BitVec.setWidth_eq] at h
  simp only [TableRow.isInstanceWord, Bool.and_eq_true, beq_iff_eq, h, and_assoc]
  cases f.hasChannel <;> simp

/-- The table's masks and patterns are those of R84: the opcode field and the format's must-be-zero bits. -/
theorem opcodeTable_eq :
    opcodeTable =
      ([(0, .n), (1, .s), (2, .c), (3, .c), (4, .s), (5, .c), (6, .c), (7, .n), (8, .m), (9, .b)] : List (Nat × Format)).map
        fun p => ⟨BitVec.ofNat 64 (p.1 * 2 ^ 60), 0xF000000000000000 ||| p.2.mbz, p.2⟩ := by
  decide

end Sys2Proof
end

