-- ==== Sys2Proof/Laws/Window.lean ====
section
/-! SUPPORT. What the window functions answer (40_sample_path.md rule R104, 41_query_emit.md rules R120 to R123). -/

namespace Sys2Proof.Machine

/-- A push onto a window that is not full adds one entry. -/
theorem push_of_lt {win : List Value} (h : win.length < 8) (v : Value) : push win v = win ++ [v] := by
  simp [push, h]

/-- A push onto a full window evicts the oldest entry. -/
theorem push_of_full {win : List Value} (h : win.length = 8) (v : Value) : push win v = win.tail ++ [v] := by
  simp [push, h]

/-- A window within its capacity stays within it, and its count never falls. -/
theorem push_length {win : List Value} (h : win.length ≤ 8) (v : Value) :
    (push win v).length = if win.length < 8 then win.length + 1 else 8 := by
  by_cases hl : win.length < 8
  · simp [push_of_lt hl, hl]
  · have h8 : win.length = 8 := by omega
    simp [push_of_full h8, h8]

/-- A push never makes the window shorter. -/
theorem length_le_push (win : List Value) (v : Value) : win.length ≤ (push win v).length := by
  unfold push
  split
  · simp
  · rw [List.length_append, List.length_tail, List.length_singleton]
    omega

theorem push_ne_nil (win : List Value) (v : Value) : push win v ≠ [] := by
  unfold push
  split <;> simp

/-- Full says that the count is eight. -/
theorem full_iff (win : List Value) : full win = true ↔ win.length = 8 := by
  simp [full]

/-- A stable window is full. -/
theorem length_of_stable {win : List Value} (h : stable win = true) : win.length = 8 := by
  simp only [stable, Bool.and_eq_true] at h
  exact (full_iff win).mp h.1

theorem median?_of_ne {win : List Value} (h : win.length ≠ 8) : median? win = none := by
  simp [median?, h]

theorem median?_of_full {win : List Value} (h : win.length = 8) :
    median? win = some (BitVec.ofNat 14 (((sortedEntries win).getD 3 0 + (sortedEntries win).getD 4 0) / 2)) := by
  simp [median?, medianEven, h]

/-- The median has a value exactly on a full window. -/
theorem median?_isSome_iff (win : List Value) : (median? win).isSome = true ↔ win.length = 8 := by
  by_cases h : win.length = 8 <;> simp [median?, h]

/-- Sorting keeps the entries. -/
theorem sortedEntries_perm (win : List Value) : (sortedEntries win).Perm (win.map BitVec.toNat) :=
  List.perm_insertionSort _ _

theorem sortedEntries_length (win : List Value) : (sortedEntries win).length = win.length := by
  rw [(sortedEntries_perm win).length_eq, List.length_map]

/-- Every sorted entry is a quantized value. -/
theorem sortedEntries_getD_lt (win : List Value) (i : Nat) : (sortedEntries win).getD i 0 < 2 ^ 14 := by
  by_cases h : i < (sortedEntries win).length
  · rw [List.getD_eq_getElem _ _ h]
    have hm := (sortedEntries_perm win).mem_iff.mp (List.getElem_mem h)
    obtain ⟨v, -, hv⟩ := List.mem_map.mp hm
    rw [← hv]
    exact v.isLt
  · rw [List.getD_eq_default _ _ (by omega)]
    decide

/-- The median as a number: no bit is lost in narrowing it (R105). -/
theorem median?_toNat {win : List Value} {m : Value} (h : median? win = some m) :
    m.toNat = ((sortedEntries win).getD 3 0 + (sortedEntries win).getD 4 0) / 2 := by
  by_cases hl : win.length = 8
  · rw [median?_of_full hl] at h
    cases h
    have h3 := sortedEntries_getD_lt win 3
    have h4 := sortedEntries_getD_lt win 4
    rw [BitVec.toNat_ofNat]
    omega
  · rw [median?_of_ne hl] at h
    cases h

end Sys2Proof.Machine
end

