-- ==== Sys2Proof/Laws/SamplePath.lean ====
section
/-! SUPPORT. What range tracking, quantization and one sample do (40_sample_path.md rules R100 to R106). -/

namespace Sys2Proof.Machine

theorem expandMin_toNat (mn raw : Raw) : (expandMin mn raw).toNat = min mn.toNat raw.toNat := by
  unfold expandMin
  split
  · rename_i h
    have := BitVec.lt_def.mp h
    omega
  · rename_i h
    have := mt BitVec.lt_def.mpr h
    omega

theorem expandMax_toNat (mx raw : Raw) : (expandMax mx raw).toNat = max mx.toNat raw.toNat := by
  unfold expandMax
  split
  · rename_i h
    have := BitVec.lt_def.mp h
    omega
  · rename_i h
    have := mt BitVec.lt_def.mpr h
    omega

/-- The expanded range takes the sample in (R101). -/
theorem expand_bounds (mn mx raw : Raw) : expandMin mn raw ≤ raw ∧ raw ≤ expandMax mx raw := by
  simp only [BitVec.le_def, expandMin_toNat, expandMax_toNat]
  omega

theorem theta_eq (range : Nat) : theta range = range / 128 := by
  simp [theta, Nat.shiftRight_eq_div_pow]

/-- The clamped offset stays within the range. -/
theorem clampOffset_le {range off : Nat} (h : off ≤ range) : clampOffset range off ≤ range := by
  unfold clampOffset
  split
  · omega
  · split <;> omega

/-- The scaled offset is at most `OUT_MAX` (R105). -/
theorem scale_le {range cl : Nat} (h : cl ≤ range) : scale range cl ≤ 16383 := by
  unfold scale
  simp only [params_outMax]
  exact Nat.div_le_of_le_mul (Nat.mul_le_mul_right _ h)

theorem quantize?_of_eq {mn mx raw : Raw} (h : mx.toNat - mn.toNat = 0) : quantize? mn mx raw = none := by
  simp [quantize?, h]

/-- The quantized value as a number (R103). -/
theorem quantize?_of_ne {mn mx raw : Raw} (h : mx.toNat - mn.toNat ≠ 0) :
    ∃ q, quantize? mn mx raw = some q ∧
      q.toNat = 16383 - scale (mx.toNat - mn.toNat) (clampOffset (mx.toNat - mn.toNat) (raw.toNat - mn.toNat)) := by
  refine ⟨BitVec.ofNat 14 (16383 - scale (mx.toNat - mn.toNat) (clampOffset (mx.toNat - mn.toNat) (raw.toNat - mn.toNat))),
    by simp [quantize?, h], ?_⟩
  rw [BitVec.toNat_ofNat]
  omega

/-- Quantize has a value exactly where the range is not zero (R102). -/
theorem quantize?_eq_none_iff (mn mx raw : Raw) : quantize? mn mx raw = none ↔ mx.toNat - mn.toNat = 0 := by
  by_cases h : mx.toNat - mn.toNat = 0 <;> simp [quantize?, h]

/-- What one sample does to a channel: the range expands, and the quantized value, where there is one, is pushed (R100). -/
theorem addSample_cases (ch : Channel) (raw : Raw) :
    (quantize? (expandMin ch.min raw) (expandMax ch.max raw) raw = none ∧
      ch.addSample raw = { ch with min := expandMin ch.min raw, max := expandMax ch.max raw }) ∨
    ∃ v, quantize? (expandMin ch.min raw) (expandMax ch.max raw) raw = some v ∧
      ch.addSample raw =
        { ch with min := expandMin ch.min raw, max := expandMax ch.max raw, win := push ch.win v } := by
  cases h : quantize? (expandMin ch.min raw) (expandMax ch.max raw) raw with
  | none => exact .inl ⟨rfl, by simp [Channel.addSample, h]⟩
  | some v => exact .inr ⟨v, rfl, by simp [Channel.addSample, h]⟩

@[simp] theorem addSample_min (ch : Channel) (raw : Raw) : (ch.addSample raw).min = expandMin ch.min raw := by
  obtain ⟨-, h⟩ | ⟨v, -, h⟩ := addSample_cases ch raw <;> rw [h]

@[simp] theorem addSample_max (ch : Channel) (raw : Raw) : (ch.addSample raw).max = expandMax ch.max raw := by
  obtain ⟨-, h⟩ | ⟨v, -, h⟩ := addSample_cases ch raw <;> rw [h]

@[simp] theorem addSample_enabled (ch : Channel) (raw : Raw) : (ch.addSample raw).enabled = ch.enabled := by
  obtain ⟨-, h⟩ | ⟨v, -, h⟩ := addSample_cases ch raw <;> rw [h]

@[simp] theorem addSample_last (ch : Channel) (raw : Raw) : (ch.addSample raw).last = ch.last := by
  obtain ⟨-, h⟩ | ⟨v, -, h⟩ := addSample_cases ch raw <;> rw [h]

@[simp] theorem addSample_cd (ch : Channel) (raw : Raw) : (ch.addSample raw).cd = ch.cd := by
  obtain ⟨-, h⟩ | ⟨v, -, h⟩ := addSample_cases ch raw <;> rw [h]

end Sys2Proof.Machine
end

