-- ==== Sys2Proof/Laws/State.lean ====
section
/-! SUPPORT. The small lemmas of every update of the state: one for each field it leaves alone and one for each field it
writes, so that no proof unfolds a record update. -/

namespace Sys2Proof.Machine

/-! ## Writing one channel -/

@[simp] theorem chan_setChan_same (s : State) (k : ChanId) (ch : Channel) : (s.setChan k ch).chan k = ch := by
  cases k <;> rfl

@[simp] theorem chan_setChan_ne (s : State) {j k : ChanId} (h : j ≠ k) (ch : Channel) :
    (s.setChan k ch).chan j = s.chan j := by
  cases j <;> cases k <;> first | rfl | exact absurd rfl h

theorem chan_setChan (s : State) (j k : ChanId) (ch : Channel) :
    (s.setChan k ch).chan j = if j = k then ch else s.chan j := by
  cases j <;> cases k <;> rfl

@[simp] theorem setChan_chan (s : State) (k : ChanId) : s.setChan k (s.chan k) = s := by
  cases k <;> rfl

@[simp] theorem setChan_setChan (s : State) (k : ChanId) (a b : Channel) :
    (s.setChan k a).setChan k b = s.setChan k b := by
  cases k <;> rfl

theorem setChan_comm (s : State) {j k : ChanId} (h : j ≠ k) (a b : Channel) :
    (s.setChan j a).setChan k b = (s.setChan k b).setChan j a := by
  cases j <;> cases k <;> first | rfl | exact absurd rfl h

@[simp] theorem setChan_ledOut (s : State) (k : ChanId) (ch : Channel) : (s.setChan k ch).ledOut = s.ledOut := by
  cases k <;> rfl

@[simp] theorem setChan_rst (s : State) (k : ChanId) (ch : Channel) : (s.setChan k ch).rst = s.rst := by
  cases k <;> rfl

@[simp] theorem setChan_hostCmds (s : State) (k : ChanId) (ch : Channel) : (s.setChan k ch).hostCmds = s.hostCmds := by
  cases k <;> rfl

@[simp] theorem setChan_samples (s : State) (k : ChanId) (ch : Channel) : (s.setChan k ch).samples = s.samples := by
  cases k <;> rfl

@[simp] theorem setChan_ticks (s : State) (k : ChanId) (ch : Channel) : (s.setChan k ch).ticks = s.ticks := by
  cases k <;> rfl

@[simp] theorem setChan_resp (s : State) (k : ChanId) (ch : Channel) : (s.setChan k ch).resp = s.resp := by
  cases k <;> rfl

@[simp] theorem setChan_responses (s : State) (k : ChanId) (ch : Channel) : (s.setChan k ch).responses = s.responses := by
  cases k <;> rfl

@[simp] theorem setChan_arbCount (s : State) (k : ChanId) (ch : Channel) : (s.setChan k ch).arbCount = s.arbCount := by
  cases k <;> rfl

/-! ## Writing all channels -/

@[simp] theorem chan_mapChans (s : State) (f : Channel → Channel) (k : ChanId) :
    (s.mapChans f).chan k = f (s.chan k) := by
  cases k <;> rfl

@[simp] theorem mapChans_ledOut (s : State) (f : Channel → Channel) : (s.mapChans f).ledOut = s.ledOut := rfl

@[simp] theorem mapChans_rst (s : State) (f : Channel → Channel) : (s.mapChans f).rst = s.rst := rfl

@[simp] theorem mapChans_hostCmds (s : State) (f : Channel → Channel) : (s.mapChans f).hostCmds = s.hostCmds := rfl

@[simp] theorem mapChans_samples (s : State) (f : Channel → Channel) : (s.mapChans f).samples = s.samples := rfl

@[simp] theorem mapChans_ticks (s : State) (f : Channel → Channel) : (s.mapChans f).ticks = s.ticks := rfl

@[simp] theorem mapChans_resp (s : State) (f : Channel → Channel) : (s.mapChans f).resp = s.resp := rfl

@[simp] theorem mapChans_responses (s : State) (f : Channel → Channel) : (s.mapChans f).responses = s.responses := rfl

@[simp] theorem mapChans_arbCount (s : State) (f : Channel → Channel) : (s.mapChans f).arbCount = s.arbCount := rfl

/-! ## Completing a command -/

@[simp] theorem chan_complete (s : State) (p : Payload) (k : ChanId) : (s.complete p).chan k = s.chan k := by
  cases k <;> rfl

@[simp] theorem complete_ch0 (s : State) (p : Payload) : (s.complete p).ch0 = s.ch0 := rfl

@[simp] theorem complete_ch1 (s : State) (p : Payload) : (s.complete p).ch1 = s.ch1 := rfl

@[simp] theorem complete_ch2 (s : State) (p : Payload) : (s.complete p).ch2 = s.ch2 := rfl

@[simp] theorem complete_ledOut (s : State) (p : Payload) : (s.complete p).ledOut = s.ledOut := rfl

@[simp] theorem complete_rst (s : State) (p : Payload) : (s.complete p).rst = s.rst := rfl

@[simp] theorem complete_hostCmds (s : State) (p : Payload) : (s.complete p).hostCmds = s.hostCmds := rfl

@[simp] theorem complete_samples (s : State) (p : Payload) : (s.complete p).samples = s.samples := rfl

@[simp] theorem complete_ticks (s : State) (p : Payload) : (s.complete p).ticks = s.ticks := rfl

@[simp] theorem complete_resp (s : State) (p : Payload) : (s.complete p).resp = completedWord p := rfl

@[simp] theorem complete_responses (s : State) (p : Payload) : (s.complete p).responses = s.responses := rfl

@[simp] theorem complete_arbCount (s : State) (p : Payload) : (s.complete p).arbCount = s.arbCount := rfl

/-! ## Rejecting a command -/

@[simp] theorem chan_reject (s : State) (c : Cause) (k : ChanId) : (s.reject c).chan k = s.chan k := by
  cases k <;> rfl

@[simp] theorem reject_ch0 (s : State) (c : Cause) : (s.reject c).ch0 = s.ch0 := rfl

@[simp] theorem reject_ch1 (s : State) (c : Cause) : (s.reject c).ch1 = s.ch1 := rfl

@[simp] theorem reject_ch2 (s : State) (c : Cause) : (s.reject c).ch2 = s.ch2 := rfl

@[simp] theorem reject_ledOut (s : State) (c : Cause) : (s.reject c).ledOut = s.ledOut := rfl

@[simp] theorem reject_rst (s : State) (c : Cause) : (s.reject c).rst = s.rst := rfl

@[simp] theorem reject_hostCmds (s : State) (c : Cause) : (s.reject c).hostCmds = s.hostCmds := rfl

@[simp] theorem reject_samples (s : State) (c : Cause) : (s.reject c).samples = s.samples := rfl

@[simp] theorem reject_ticks (s : State) (c : Cause) : (s.reject c).ticks = s.ticks := rfl

@[simp] theorem reject_resp (s : State) (c : Cause) : (s.reject c).resp = rejectedWord c := rfl

@[simp] theorem reject_responses (s : State) (c : Cause) : (s.reject c).responses = s.responses := rfl

@[simp] theorem reject_arbCount (s : State) (c : Cause) : (s.reject c).arbCount = s.arbCount := rfl

/-! ## Rendering a mask -/

@[simp] theorem chan_render (s : State) (m : Mask) (k : ChanId) : (s.render m).chan k = s.chan k := by
  cases k <;> rfl

@[simp] theorem render_ch0 (s : State) (m : Mask) : (s.render m).ch0 = s.ch0 := rfl

@[simp] theorem render_ch1 (s : State) (m : Mask) : (s.render m).ch1 = s.ch1 := rfl

@[simp] theorem render_ch2 (s : State) (m : Mask) : (s.render m).ch2 = s.ch2 := rfl

@[simp] theorem render_ledOut (s : State) (m : Mask) : (s.render m).ledOut = m := rfl

@[simp] theorem render_rst (s : State) (m : Mask) : (s.render m).rst = s.rst := rfl

@[simp] theorem render_hostCmds (s : State) (m : Mask) : (s.render m).hostCmds = s.hostCmds := rfl

@[simp] theorem render_samples (s : State) (m : Mask) : (s.render m).samples = s.samples := rfl

@[simp] theorem render_ticks (s : State) (m : Mask) : (s.render m).ticks = s.ticks := rfl

@[simp] theorem render_resp (s : State) (m : Mask) : (s.render m).resp = completedWord (maskPayload m) := rfl

@[simp] theorem render_responses (s : State) (m : Mask) : (s.render m).responses = s.responses := rfl

@[simp] theorem render_arbCount (s : State) (m : Mask) : (s.render m).arbCount = s.arbCount := rfl

/-! ## Delivering a response -/

@[simp] theorem chan_deliver (s : State) (a : Agent) (k : ChanId) : (s.deliver a).chan k = s.chan k := by
  cases k <;> rfl

@[simp] theorem deliver_ch0 (s : State) (a : Agent) : (s.deliver a).ch0 = s.ch0 := rfl

@[simp] theorem deliver_ch1 (s : State) (a : Agent) : (s.deliver a).ch1 = s.ch1 := rfl

@[simp] theorem deliver_ch2 (s : State) (a : Agent) : (s.deliver a).ch2 = s.ch2 := rfl

@[simp] theorem deliver_ledOut (s : State) (a : Agent) : (s.deliver a).ledOut = s.ledOut := rfl

@[simp] theorem deliver_rst (s : State) (a : Agent) : (s.deliver a).rst = s.rst := rfl

@[simp] theorem deliver_hostCmds (s : State) (a : Agent) : (s.deliver a).hostCmds = s.hostCmds := rfl

@[simp] theorem deliver_samples (s : State) (a : Agent) : (s.deliver a).samples = s.samples := rfl

@[simp] theorem deliver_ticks (s : State) (a : Agent) : (s.deliver a).ticks = s.ticks := rfl

@[simp] theorem deliver_resp (s : State) (a : Agent) : (s.deliver a).resp = s.resp := rfl

@[simp] theorem deliver_responses (s : State) (a : Agent) : (s.deliver a).responses = s.responses ++ [⟨a, s.resp⟩] := rfl

@[simp] theorem deliver_arbCount (s : State) (a : Agent) : (s.deliver a).arbCount = s.arbCount := rfl

/-! ## Taking a command off its port -/

@[simp] theorem chan_accept (s : State) (a : Agent) (k : ChanId) : (s.accept a).chan k = s.chan k := by
  cases a <;> cases k <;> rfl

@[simp] theorem accept_ch0 (s : State) (a : Agent) : (s.accept a).ch0 = s.ch0 := by
  cases a <;> rfl

@[simp] theorem accept_ch1 (s : State) (a : Agent) : (s.accept a).ch1 = s.ch1 := by
  cases a <;> rfl

@[simp] theorem accept_ch2 (s : State) (a : Agent) : (s.accept a).ch2 = s.ch2 := by
  cases a <;> rfl

@[simp] theorem accept_ledOut (s : State) (a : Agent) : (s.accept a).ledOut = s.ledOut := by
  cases a <;> rfl

@[simp] theorem accept_rst (s : State) (a : Agent) : (s.accept a).rst = s.rst := by
  cases a <;> rfl

@[simp] theorem accept_hostCmds (s : State) (a : Agent) : (s.accept a).hostCmds = if a = .host then s.hostCmds.tail else s.hostCmds := by
  cases a <;> rfl

@[simp] theorem accept_samples (s : State) (a : Agent) : (s.accept a).samples = if a = .source then s.samples.tail else s.samples := by
  cases a <;> rfl

@[simp] theorem accept_ticks (s : State) (a : Agent) : (s.accept a).ticks = if a = .timebase then s.ticks - 1 else s.ticks := by
  cases a <;> rfl

@[simp] theorem accept_resp (s : State) (a : Agent) : (s.accept a).resp = s.resp := by
  cases a <;> rfl

@[simp] theorem accept_responses (s : State) (a : Agent) : (s.accept a).responses = s.responses := by
  cases a <;> rfl

@[simp] theorem accept_arbCount (s : State) (a : Agent) : (s.accept a).arbCount = s.arbCount + 1 := by
  cases a <;> rfl

/-! ## The reset input -/

@[simp] theorem chan_resetInput (s : State) (k : ChanId) : s.resetInput.chan k = Channel.fresh := by
  cases k <;> rfl

@[simp] theorem resetInput_ch0 (s : State) : s.resetInput.ch0 = Channel.fresh := rfl

@[simp] theorem resetInput_ch1 (s : State) : s.resetInput.ch1 = Channel.fresh := rfl

@[simp] theorem resetInput_ch2 (s : State) : s.resetInput.ch2 = Channel.fresh := rfl

@[simp] theorem resetInput_ledOut (s : State) : s.resetInput.ledOut = 0 := rfl

@[simp] theorem resetInput_rst (s : State) : s.resetInput.rst = false := rfl

@[simp] theorem resetInput_hostCmds (s : State) : s.resetInput.hostCmds = s.hostCmds.tail := rfl

@[simp] theorem resetInput_samples (s : State) : s.resetInput.samples = s.samples.tail := rfl

@[simp] theorem resetInput_ticks (s : State) : s.resetInput.ticks = s.ticks - 1 := rfl

@[simp] theorem resetInput_resp (s : State) : s.resetInput.resp = 0 := rfl

@[simp] theorem resetInput_responses (s : State) : s.resetInput.responses = s.responses := rfl

@[simp] theorem resetInput_arbCount (s : State) : s.resetInput.arbCount = s.arbCount := rfl

/-! ## Reset and equality -/

@[simp] theorem chan_reset (k : ChanId) : State.reset.chan k = Channel.fresh := by
  cases k <;> rfl

/-- Two states agree when every channel, the latch and every interface field agree. -/
theorem state_ext {s t : State} (hc : ∀ k, s.chan k = t.chan k) (hl : s.ledOut = t.ledOut) (hr : s.rst = t.rst)
    (hh : s.hostCmds = t.hostCmds) (hs : s.samples = t.samples) (ht : s.ticks = t.ticks) (hp : s.resp = t.resp)
    (hq : s.responses = t.responses) (ha : s.arbCount = t.arbCount) : s = t := by
  have h0 := hc .c0
  have h1 := hc .c1
  have h2 := hc .c2
  cases s
  cases t
  simp_all [State.chan]

end Sys2Proof.Machine
end

