-- ==== Sys2Proof/Laws/Exec.lean ====
section
/-! SUPPORT. What a command can do, said once: the operand form, the gate on the median, and `exec` inverted (30_encoding.md
rule R80, 41_query_emit.md rule R123, 10_state.md rule R36). -/

namespace Sys2Proof.Machine

/-! ## The channel operand -/

/-- Only the field 3 names no channel (R80). -/
theorem channel?_eq_none_iff (c : ChField) : channel? c = none ↔ c = 3 := by
  revert c
  decide

theorem channel?_ne_three {c : ChField} {k : ChanId} (h : channel? c = some k) : c ≠ 3 := by
  intro hc
  rw [(channel?_eq_none_iff c).mpr hc] at h
  cases h

/-- Every channel has its field. -/
theorem exists_channel? (k : ChanId) : ∃ c, channel? c = some k := by
  cases k
  exacts [⟨0, rfl⟩, ⟨1, rfl⟩, ⟨2, rfl⟩]

/-- Each channel has one field. -/
theorem channel?_inj {c d : ChField} {k : ChanId} (hc : channel? c = some k) (hd : channel? d = some k) : c = d := by
  revert hc hd
  revert c d
  cases k <;> decide

theorem withChannel_some {c : ChField} {k : ChanId} (h : channel? c = some k) (s : State) (f : ChanId → Result) :
    withChannel c s f = f k := by
  simp [withChannel, h]

theorem withChannel_none {c : ChField} (h : channel? c = none) (s : State) (f : ChanId → Result) :
    withChannel c s f = .next (s.reject .illegalChannel) := by
  simp [withChannel, h]

/-- What a command with a channel operand can answer. -/
theorem withChannel_next {c : ChField} {s t : State} {f : ChanId → Result} (h : withChannel c s f = .next t) :
    (channel? c = none ∧ t = s.reject .illegalChannel) ∨ ∃ k, channel? c = some k ∧ f k = .next t := by
  unfold withChannel at h
  split at h
  · cases h
    exact .inl ⟨‹_›, rfl⟩
  · exact .inr ⟨_, ‹_›, h⟩

/-! ## The median gate -/

theorem withMedian_some {ch : Channel} {m : Value} (h : median? ch.win = some m) (f : Value → Result) :
    withMedian ch f = f m := by
  simp [withMedian, h]

theorem withMedian_next {ch : Channel} {t : State} {f : Value → Result} (h : withMedian ch f = .next t) :
    ∃ m, median? ch.win = some m ∧ f m = .next t := by
  unfold withMedian at h
  split at h
  · exact ⟨_, ‹_›, h⟩
  · cases h

/-! ## Each command inverted -/

theorem execAddsample_next {c : ChField} {raw : Raw} {s t : State} (h : execAddsample c raw s = .next t) :
    (channel? c = none ∧ t = s.reject .illegalChannel) ∨
    ∃ k, channel? c = some k ∧ t = (s.setChan k ((s.chan k).addSample raw)).complete 0 := by
  obtain hr | ⟨k, hk, hf⟩ := withChannel_next h
  · exact .inl hr
  · cases hf
    exact .inr ⟨k, hk, rfl⟩

theorem execIsstable_next {c : ChField} {s t : State} (h : execIsstable c s = .next t) :
    (channel? c = none ∧ t = s.reject .illegalChannel) ∨
    ∃ k, channel? c = some k ∧ t = s.complete (boolPayload (stable (s.chan k).win)) := by
  obtain hr | ⟨k, hk, hf⟩ := withChannel_next h
  · exact .inl hr
  · cases hf
    exact .inr ⟨k, hk, rfl⟩

theorem execCurval_next {c : ChField} {s t : State} (h : execCurval c s = .next t) :
    (channel? c = none ∧ t = s.reject .illegalChannel) ∨
    (∃ k, channel? c = some k ∧ (s.chan k).enabled = false ∧ t = s.complete 0) ∨
    ∃ k m, channel? c = some k ∧ (s.chan k).enabled = true ∧ median? (s.chan k).win = some m ∧
      t = s.complete (valuePayload m) := by
  obtain hr | ⟨k, hk, hf⟩ := withChannel_next h
  · exact .inl hr
  · split at hf
    · obtain ⟨m, hm, hf⟩ := withMedian_next hf
      cases hf
      exact .inr (.inr ⟨k, m, hk, ‹_›, hm, rfl⟩)
    · cases hf
      exact .inr (.inl ⟨k, hk, by simp_all, rfl⟩)

theorem execEmit_next {c : ChField} {thr : Ticks} {s t : State} (h : execEmit c thr s = .next t) :
    (channel? c = none ∧ t = s.reject .illegalChannel) ∨
    (∃ k, channel? c = some k ∧ (s.chan k).enabled = false ∧ t = s.complete 0) ∨
    (∃ k m, channel? c = some k ∧ (s.chan k).enabled = true ∧ median? (s.chan k).win = some m ∧
      emits (s.chan k) m thr = false ∧ t = s.complete 0) ∨
    ∃ k m, channel? c = some k ∧ (s.chan k).enabled = true ∧ median? (s.chan k).win = some m ∧
      emits (s.chan k) m thr = true ∧
      t = (s.setChan k ((s.chan k).emitted m)).complete (emittedPayload m) := by
  obtain hr | ⟨k, hk, hf⟩ := withChannel_next h
  · exact .inl hr
  · split at hf
    · obtain ⟨m, hm, hf⟩ := withMedian_next hf
      split at hf
      · cases hf
        exact .inr (.inr (.inr ⟨k, m, hk, ‹_›, hm, ‹_›, rfl⟩))
      · cases hf
        exact .inr (.inr (.inl ⟨k, m, hk, ‹_›, hm, by simp_all, rfl⟩))
    · cases hf
      exact .inr (.inl ⟨k, hk, by simp_all, rfl⟩)

theorem execReset_next {c : ChField} {s t : State} (h : execReset c s = .next t) :
    (channel? c = none ∧ t = s.reject .illegalChannel) ∨
    ∃ k, channel? c = some k ∧ t = (s.setChan k Channel.fresh).complete 0 := by
  obtain hr | ⟨k, hk, hf⟩ := withChannel_next h
  · exact .inl hr
  · cases hf
    exact .inr ⟨k, hk, rfl⟩

theorem execCalib_next {c : ChField} {s t : State} (h : execCalib c s = .next t) :
    (channel? c = none ∧ t = s.reject .illegalChannel) ∨
    ∃ k, channel? c = some k ∧
      t = (s.setChan k (s.chan k).calibrated).complete 0 := by
  obtain hr | ⟨k, hk, hf⟩ := withChannel_next h
  · exact .inl hr
  · cases hf
    exact .inr ⟨k, hk, rfl⟩

/-! ## Every command -/

/-- What any command can do to any one channel (R36). -/
inductive ChannelMove (i : Instr) (k : ChanId) (ch : Channel) : Channel → Prop where
  | stay : ChannelMove i k ch ch
  | sample (c : ChField) (raw : Raw) (hi : i = .addsample c raw) (hc : channel? c = some k) :
      ChannelMove i k ch (ch.addSample raw)
  | emission (c : ChField) (thr : Ticks) (m : Value) (hi : i = .emit c thr) (hc : channel? c = some k)
      (he : ch.enabled = true) (hm : median? ch.win = some m) (hg : emits ch m thr = true) :
      ChannelMove i k ch (ch.emitted m)
  | clear (c : ChField) (hi : i = .reset c) (hc : channel? c = some k) : ChannelMove i k ch Channel.fresh
  | judge (c : ChField) (hi : i = .calib c) (hc : channel? c = some k) :
      ChannelMove i k ch ch.calibrated
  | count (hi : i = .tick) : ChannelMove i k ch ch.ticked

/-- A write of one channel is a move of that channel and leaves the others. -/
theorem ChannelMove.of_setChan {i : Instr} {s : State} {k : ChanId} {ch : Channel}
    (h : ChannelMove i k (s.chan k) ch) (p : Payload) (j : ChanId) :
    ChannelMove i j (s.chan j) (((s.setChan k ch).complete p).chan j) := by
  rw [chan_complete, chan_setChan]
  split
  · subst j
    exact h
  · exact .stay

/-- Every command that answers a next state moves each channel by one of these moves. -/
theorem exec_moves {i : Instr} {s t : State} (h : exec i s = .next t) (j : ChanId) :
    ChannelMove i j (s.chan j) (t.chan j) := by
  cases i with
  | nop =>
    cases h
    exact .stay
  | addsample c raw =>
    obtain ⟨-, rfl⟩ | ⟨k, hk, rfl⟩ := execAddsample_next h
    · exact .stay
    · exact (ChannelMove.sample c raw rfl hk).of_setChan 0 j
  | isstable c =>
    obtain ⟨-, rfl⟩ | ⟨k, hk, rfl⟩ := execIsstable_next h <;> exact .stay
  | curval c =>
    obtain ⟨-, rfl⟩ | ⟨k, -, -, rfl⟩ | ⟨k, m, -, -, -, rfl⟩ := execCurval_next h <;> exact .stay
  | emit c thr =>
    obtain ⟨-, rfl⟩ | ⟨k, -, -, rfl⟩ | ⟨k, m, -, -, -, -, rfl⟩ | ⟨k, m, hk, he, hm, hg, rfl⟩ := execEmit_next h
    · exact .stay
    · exact .stay
    · exact .stay
    · exact (ChannelMove.emission c thr m rfl hk he hm hg).of_setChan _ j
  | reset c =>
    obtain ⟨-, rfl⟩ | ⟨k, hk, rfl⟩ := execReset_next h
    · exact .stay
    · exact (ChannelMove.clear c rfl hk).of_setChan 0 j
  | calib c =>
    obtain ⟨-, rfl⟩ | ⟨k, hk, rfl⟩ := execCalib_next h
    · exact .stay
    · exact (ChannelMove.judge c rfl hk).of_setChan 0 j
  | tick =>
    cases h
    rw [chan_complete, chan_mapChans]
    exact .count rfl
  | ledset mask =>
    cases h
    rw [chan_render]
    exact .stay
  | ledblink maskA maskB elapsed half =>
    cases h
    rw [chan_render]
    exact .stay

/-- No command touches the ports, the reset input or the responses already given. -/
theorem exec_interface {i : Instr} {s t : State} (h : exec i s = .next t) :
    t.rst = s.rst ∧ t.hostCmds = s.hostCmds ∧ t.samples = s.samples ∧ t.ticks = s.ticks ∧
      t.responses = s.responses ∧ t.arbCount = s.arbCount := by
  cases i with
  | addsample c raw => obtain ⟨-, rfl⟩ | ⟨k, -, rfl⟩ := execAddsample_next h <;> simp
  | isstable c => obtain ⟨-, rfl⟩ | ⟨k, -, rfl⟩ := execIsstable_next h <;> simp
  | curval c => obtain ⟨-, rfl⟩ | ⟨k, -, -, rfl⟩ | ⟨k, m, -, -, -, rfl⟩ := execCurval_next h <;> simp
  | emit c thr =>
    obtain ⟨-, rfl⟩ | ⟨k, -, -, rfl⟩ | ⟨k, m, -, -, -, -, rfl⟩ | ⟨k, m, -, -, -, -, rfl⟩ := execEmit_next h <;> simp
  | reset c => obtain ⟨-, rfl⟩ | ⟨k, -, rfl⟩ := execReset_next h <;> simp
  | calib c => obtain ⟨-, rfl⟩ | ⟨k, -, rfl⟩ := execCalib_next h <;> simp
  | nop => cases h; simp
  | tick => cases h; simp
  | ledset mask => cases h; simp
  | ledblink maskA maskB elapsed half => cases h; simp

end Sys2Proof.Machine
end

