-- ==== Sys2Proof/Laws/PerInstr.lean ====
section
/-! SUPPORT. One statement about every command as syntax, lemma by lemma: the word `encode` gives a well-formed command is an
instance of that command's own row of spec/opcode_table.json (30_encoding.md rules R76 and R84). -/

namespace Sys2Proof.Laws.EncodesToItsRow

/-- The row of `opcodeTable` that is the command's own. -/
def rowIndex : Instr → Nat
  | .nop => 0
  | .addsample _ _ => 1
  | .isstable _ => 2
  | .curval _ => 3
  | .emit _ _ => 4
  | .reset _ => 5
  | .calib _ => 6
  | .tick => 7
  | .ledset _ => 8
  | .ledblink _ _ _ _ => 9

/-- A well-formed command encodes to an instance of its own row. -/
def Statement (i : Instr) : Prop :=
  i.WellFormed → ∃ r, opcodeTable[rowIndex i]? = some r ∧ r.isInstanceWord (encode i) = true

/-- A word with the fixed bits of a row and a legal channel field is an instance of it. -/
theorem isInstanceWord_of {r : TableRow} {w : CmdWord} (hp : w &&& r.mask = r.pattern)
    (hc : r.format.hasChannel = true → fieldCh w ≠ 3) : r.isInstanceWord w = true := by
  cases hf : r.format.hasChannel <;> simp_all [TableRow.isInstanceWord]

/-- The channel field of a concatenation that starts with an opcode and a channel. -/
theorem fieldCh_append (op : BitVec 4) (c : ChField) (x : BitVec 58) :
    fieldCh (op ++ c ++ x : BitVec 64) = c := by
  apply BitVec.eq_of_getLsbD_eq
  intro i hi
  simp only [fieldCh, BitVec.getLsbD_extractLsb', BitVec.getLsbD_append]
  interval_cases i <;> simp

theorem fieldCh_append_imm (op : BitVec 4) (c : ChField) (x : BitVec 42) (y : BitVec 16) :
    fieldCh (op ++ c ++ x ++ y : BitVec 64) = c := by
  apply BitVec.eq_of_getLsbD_eq
  intro i hi
  simp only [fieldCh, BitVec.getLsbD_extractLsb', BitVec.getLsbD_append]
  interval_cases i <;> simp

/-- The fixed bits of a format C word. -/
theorem mask_formatC (op : BitVec 4) (c : ChField) :
    (op ++ c ++ 0#58 : BitVec 64) &&& 0xF3FFFFFFFFFFFFFF = (op ++ 0#60 : BitVec 64) := by
  apply BitVec.eq_of_getLsbD_eq
  intro i hi
  rw [BitVec.getLsbD_and]
  simp only [BitVec.getLsbD_append]
  interval_cases i <;> simp

/-- The fixed bits of a format S word. -/
theorem mask_formatS (op : BitVec 4) (c : ChField) (x : BitVec 16) :
    (op ++ c ++ 0#42 ++ x : BitVec 64) &&& 0xF3FFFFFFFFFF0000 = (op ++ 0#60 : BitVec 64) := by
  apply BitVec.eq_of_getLsbD_eq
  intro i hi
  rw [BitVec.getLsbD_and]
  simp only [BitVec.getLsbD_append]
  interval_cases i <;> simp

theorem wf_channel {c : ChField} (h : (c != 3) = true) : c ≠ 3 := by
  simpa using h

theorem nop : Statement .nop := fun _ => ⟨_, rfl, by decide⟩

theorem addsample (c : ChField) (raw : Raw) : Statement (.addsample c raw) := fun h =>
  ⟨_, rfl, isInstanceWord_of (mask_formatS 1 c raw) fun _ => by
    rw [show fieldCh (encode (.addsample c raw)) = c from fieldCh_append_imm 1 c 0 raw]
    exact wf_channel h⟩

theorem isstable (c : ChField) : Statement (.isstable c) := fun h =>
  ⟨_, rfl, isInstanceWord_of (mask_formatC 2 c) fun _ => by
    rw [show fieldCh (encode (.isstable c)) = c from fieldCh_append 2 c 0]
    exact wf_channel h⟩

theorem curval (c : ChField) : Statement (.curval c) := fun h =>
  ⟨_, rfl, isInstanceWord_of (mask_formatC 3 c) fun _ => by
    rw [show fieldCh (encode (.curval c)) = c from fieldCh_append 3 c 0]
    exact wf_channel h⟩

theorem emit (c : ChField) (thr : Ticks) : Statement (.emit c thr) := fun h =>
  ⟨_, rfl, isInstanceWord_of (mask_formatS 4 c thr) fun _ => by
    rw [show fieldCh (encode (.emit c thr)) = c from fieldCh_append_imm 4 c 0 thr]
    exact wf_channel h⟩

theorem reset (c : ChField) : Statement (.reset c) := fun h =>
  ⟨_, rfl, isInstanceWord_of (mask_formatC 5 c) fun _ => by
    rw [show fieldCh (encode (.reset c)) = c from fieldCh_append 5 c 0]
    exact wf_channel h⟩

theorem calib (c : ChField) : Statement (.calib c) := fun h =>
  ⟨_, rfl, isInstanceWord_of (mask_formatC 6 c) fun _ => by
    rw [show fieldCh (encode (.calib c)) = c from fieldCh_append 6 c 0]
    exact wf_channel h⟩

theorem tick : Statement .tick := fun _ => ⟨_, rfl, by decide⟩

theorem ledset (mask : Mask) : Statement (.ledset mask) := by
  refine fun _ => ⟨_, rfl, isInstanceWord_of ?_ fun h => by simp [Format.hasChannel] at h⟩
  apply BitVec.eq_of_getLsbD_eq
  intro i hi
  rw [BitVec.getLsbD_and]
  simp only [encode, BitVec.getLsbD_append]
  interval_cases i <;> simp

theorem ledblink (maskA maskB : Mask) (elapsed half : Ticks) : Statement (.ledblink maskA maskB elapsed half) := by
  refine fun _ => ⟨_, rfl, isInstanceWord_of ?_ fun h => by simp [Format.hasChannel] at h⟩
  apply BitVec.eq_of_getLsbD_eq
  intro i hi
  rw [BitVec.getLsbD_and]
  simp only [encode, BitVec.getLsbD_append]
  interval_cases i <;> simp

end Sys2Proof.Laws.EncodesToItsRow
end

