-- ==== Sys2Proof/Laws/Ports.lean ====
section
/-! SUPPORT. What arbitration and serving a port can do (20_memory.md rules R56 and R57). -/

namespace Sys2Proof.Machine

/-- The agents waiting are those that present a command. -/
theorem mem_waiting_iff (s : State) (a : Agent) : a ∈ s.waiting ↔ (s.presented a).isSome = true := by
  rw [State.waiting, List.mem_filter]
  refine ⟨fun h => h.2, fun h => ⟨?_, h⟩⟩
  cases a <;> simp

/-- Arbitration names nobody exactly when nobody waits, and otherwise one that waits. -/
theorem arbitrate_cases (s : State) :
    (s.arbitrate = none ∧ s.waiting = []) ∨ ∃ a, s.arbitrate = some a ∧ a ∈ s.waiting := by
  unfold State.arbitrate
  split
  · exact .inl ⟨rfl, ‹_›⟩
  · exact .inr ⟨_, rfl, by simp [*]⟩
  · rename_i a rest _ h
    refine .inr ⟨_, rfl, ?_⟩
    rw [h, List.getD_eq_getElem _ _ (Nat.mod_lt _ (by simp))]
    exact List.getElem_mem _

/-- A served agent presents a word. -/
theorem presented_of_arbitrate {s : State} {a : Agent} (h : s.arbitrate = some a) : ∃ w, s.presented a = some w := by
  obtain ⟨hn, -⟩ | ⟨b, hb, hw⟩ := arbitrate_cases s
  · rw [hn] at h
    cases h
  · rw [hb] at h
    cases h
    exact Option.isSome_iff_exists.mp ((mem_waiting_iff s a).mp hw)

theorem delivered_next {a : Agent} {x : Result} {t : State} (h : delivered a x = .next t) :
    ∃ u, x = .next u ∧ t = u.deliver a := by
  cases x with
  | next u =>
    cases h
    exact ⟨u, rfl, rfl⟩
  | fault f => cases h
  | refused r => cases h

/-- Serving an agent, inverted: nobody waits, or one presented word is taken, executed and answered. -/
theorem serve_next {s t : State} (h : serve s = .next t) :
    (s.arbitrate = none ∧ t = s) ∨
    ∃ a w u, s.arbitrate = some a ∧ s.presented a = some w ∧ execWord w (s.accept a) = .next u ∧ t = u.deliver a := by
  unfold serve at h
  split at h
  · cases h
    exact .inl ⟨‹_›, rfl⟩
  · rename_i a ha
    obtain ⟨w, hw⟩ := presented_of_arbitrate ha
    simp only [hw] at h
    obtain ⟨u, hu, rfl⟩ := delivered_next h
    exact .inr ⟨a, w, u, ha, hw, hu, rfl⟩

/-- A word, inverted: it decodes to a command that executes, or it is rejected and changes no register. -/
theorem execWord_next {w : CmdWord} {s t : State} (h : execWord w s = .next t) :
    (∃ i, decodeWord w = .command i ∧ exec i s = .next t) ∨
    ∃ c, decodeWord w = .rejected c ∧ t = s.reject c := by
  unfold execWord at h
  split at h
  · exact .inl ⟨_, ‹_›, h⟩
  · cases h
    exact .inr ⟨_, ‹_›, rfl⟩

end Sys2Proof.Machine
end

