-- ==== Sys2Proof/Laws/Response.lean ====
section
/-! SUPPORT. Response words as numbers (30_encoding.md rule R75, 60_exceptions.md rules R180 and R181). -/

namespace Sys2Proof.Machine

/-- A completed command answers its payload, `ERR` clear. -/
theorem completedWord_toNat (p : Payload) : (completedWord p).toNat = p.toNat := by
  simp only [completedWord, toNat_append_mul, BitVec.toNat_ofNat]
  omega

@[simp] theorem completedWord_zero : completedWord 0#17 = 0#32 := by decide

@[simp] theorem rejectedWord_illegalOpcode : rejectedWord .illegalOpcode = 0x80000001 := by decide
@[simp] theorem rejectedWord_reservedNonzero : rejectedWord .reservedNonzero = 0x80000002 := by decide
@[simp] theorem rejectedWord_illegalChannel : rejectedWord .illegalChannel = 0x80000003 := by decide

/-- The `ERR` bit tells the two outcomes apart (R11, R75). -/
theorem err_eq_decide (r : Response) : r.err = decide (2 ^ 31 ≤ r.word.toNat) := by
  have := r.word.isLt
  rw [Response.err, BitVec.getLsbD, Nat.testBit_eq_decide_div_mod_eq, decide_eq_decide]
  omega

theorem boolPayload_toNat (b : Bool) : (boolPayload b).toNat = if b then 1 else 0 := by
  cases b <;> rfl

theorem valuePayload_toNat (v : Value) : (valuePayload v).toNat = v.toNat := by
  have := v.isLt
  rw [valuePayload, BitVec.toNat_setWidth]
  omega

theorem maskPayload_toNat (m : Mask) : (maskPayload m).toNat = m.toNat := by
  have := m.isLt
  rw [maskPayload, BitVec.toNat_setWidth]
  omega

theorem highByte_toNat (m : Value) : (highByte m).toNat = m.toNat / 128 := by
  have := m.isLt
  rw [highByte, BitVec.extractLsb'_toNat, Nat.shiftRight_eq_div_pow]
  omega

theorem lowByte_toNat (m : Value) : (lowByte m).toNat = m.toNat % 128 := by
  rw [lowByte, BitVec.extractLsb'_toNat, Nat.shiftRight_eq_div_pow]
  omega

/-- The two bytes of an emission in their lanes, under the bit that says there is one (R75). -/
theorem emittedPayload_toNat (m : Value) :
    (emittedPayload m).toNat = 0x10000 + m.toNat / 128 * 256 + m.toNat % 128 := by
  simp only [emittedPayload, toNat_append_mul, BitVec.toNat_ofNat, highByte_toNat, lowByte_toNat]
  omega

end Sys2Proof.Machine
end

