-- ==== Sys2Proof/Laws/Safety.lean ====
section
/-! SUPPORT. The invariants channel by channel (10_state.md rule R27), and runs taken apart (70_reset_and_hazards.md rule R231). -/

namespace Sys2Proof.Machine

theorem inv_iff (s : State) : s.Inv ↔ ∀ k, (s.chan k).Inv := by
  constructor
  · rintro ⟨h0, h1, h2⟩ k
    cases k <;> assumption
  · exact fun h => ⟨h .c0, h .c1, h .c2⟩

theorem fresh_inv : Channel.fresh.Inv := by decide

/-- A run of one more command, inverted. -/
theorem runCommands_cons_next {i : Instr} {is : List Instr} {s u : State} (h : runCommands (i :: is) s = .next u) :
    ∃ t, exec i s = .next t ∧ runCommands is t = .next u := by
  rw [runCommands] at h
  cases hx : exec i s with
  | next t =>
    rw [hx] at h
    exact ⟨t, rfl, h⟩
  | fault f => rw [hx] at h; cases h
  | refused r => rw [hx] at h; cases h

theorem runCommands_cons {i : Instr} {is : List Instr} {s t : State} (h : exec i s = .next t) :
    runCommands (i :: is) s = runCommands is t := by
  rw [runCommands, h]

/-! ## Emissions in response words -/

theorem emittedNow_eq_decide (r : RespWord) : emittedNow r = decide (r.toNat / 2 ^ 16 % 2 = 1) := by
  rw [emittedNow, BitVec.getLsbD, Nat.testBit_eq_decide_div_mod_eq]

theorem emittedValue_toNat (r : RespWord) :
    (emittedValue r).toNat = r.toNat / 2 ^ 8 % 128 * 128 + r.toNat % 128 := by
  simp only [emittedValue, toNat_append_mul, BitVec.extractLsb'_toNat, Nat.shiftRight_eq_div_pow]
  omega

@[simp] theorem emittedNow_zero : emittedNow 0#32 = false := by decide

/-- An emission's response says that there is one, and carries its value (R75, R126). -/
@[simp] theorem emittedNow_emitted (m : Value) : emittedNow (completedWord (emittedPayload m)) = true := by
  have := m.isLt
  rw [emittedNow_eq_decide, completedWord_toNat, emittedPayload_toNat, decide_eq_true_eq]
  omega

@[simp] theorem emittedValue_emitted (m : Value) : emittedValue (completedWord (emittedPayload m)) = m := by
  have := m.isLt
  apply BitVec.eq_of_toNat_eq
  rw [emittedValue_toNat, completedWord_toNat, emittedPayload_toNat]
  omega

/-- The window under one sample: unchanged where the range is zero, pushed otherwise (R100). -/
theorem addSample_win (ch : Channel) (raw : Raw) :
    (ch.addSample raw).win =
      match quantize? (expandMin ch.min raw) (expandMax ch.max raw) raw with
      | none => ch.win
      | some v => push ch.win v := by
  obtain ⟨hq, h⟩ | ⟨v, hq, h⟩ := addSample_cases ch raw <;> rw [h, hq]

end Sys2Proof.Machine
end

