-- ==== Sys2Proof/Tests/Slice0.lean ====
section
/-! SUPPORT. The model's own tests: the well-formedness check refuses what it must, words written out from the encoding, one
step at a time on small states with the expected results of spec/95_test_vectors.md, and for each statement with hypotheses a
state and operands that meet them together. -/

namespace Sys2Proof.Machine.Tests

/-! ## Helpers -/

/-- The next state of a result, if it has one. -/
def nextOf : Result → Option State
  | .next t => some t
  | .fault _ => none
  | .refused _ => none

/-- The response word of a result, if it has a next state. -/
def respOf (x : Result) : Option RespWord := (nextOf x).map State.resp

/-- A reset machine but for channel 0, which has a given window, flag, last value and cooldown over the range 100 to 900. -/
def onChannel0 (win : List Value) (enabled : Bool) (last : Value) (cd : Ticks) : State :=
  { State.reset with ch0 := { min := 100, max := 900, win, enabled, last, cd } }

/-- A reset machine but for the range of channel 0. -/
def onRange (mn mx : Raw) : State := { State.reset with ch0 := { Channel.fresh with min := mn, max := mx } }

/-- A window of eight equal entries. -/
def eight (v : Value) : List Value := List.replicate 8 v

/-- The reset machine with one word on the H-port. -/
def presenting (w : CmdWord) : State := { State.reset with hostCmds := [w] }

/-! ## Well-formedness (R80) -/

theorem test_wf_refuses_channel_three :
    (Instr.addsample 3 0).wf = false ∧ (Instr.isstable 3).wf = false ∧ (Instr.curval 3).wf = false ∧
    (Instr.emit 3 0).wf = false ∧ (Instr.reset 3).wf = false ∧ (Instr.calib 3).wf = false := by decide

theorem test_wf_takes_every_other_form :
    Instr.nop.wf = true ∧ (Instr.addsample 2 0xFFFF).wf = true ∧ Instr.tick.wf = true ∧ (Instr.ledset 0x7FF).wf = true ∧
    (Instr.ledblink 0 0 0 0).wf = true := by decide

/-! ## Decoding (95_test_vectors.md, table D) -/

/-- DEC1 to DEC12: one word of every command. -/
theorem test_decode_words :
    decodeWord 0x0000000000000000 = .command .nop ∧
    decodeWord 0x1000000000000064 = .command (.addsample 0 100) ∧
    decodeWord 0x180000000000FFFF = .command (.addsample 2 65535) ∧
    decodeWord 0x2400000000000000 = .command (.isstable 1) ∧
    decodeWord 0x3800000000000000 = .command (.curval 2) ∧
    decodeWord 0x44000000000001F4 = .command (.emit 1 500) ∧
    decodeWord 0x5000000000000000 = .command (.reset 0) ∧
    decodeWord 0x6400000000000000 = .command (.calib 1) ∧
    decodeWord 0x7000000000000000 = .command .tick ∧
    decodeWord 0x80000000000007FF = .command (.ledset 0x7FF) ∧
    decodeWord 0x90007D013880F808 = .command (.ledblink 0x008 0x01F 1250 500) ∧
    decodeWord 0x9000000000000000 = .command (.ledblink 0 0 0 0) := by decide

/-- The fields of R74 written out bit by bit: LEDBLINK with `HALF` 1, `ELAPSED` 0x8001, `MASKB` 0x401, `MASKA` 0x402, and EMIT
on channel 2 with `IMM16` 0x8001. -/
theorem test_decode_bits :
    decodeWord 0b1001000000000000000000000110000000000000011000000000110000000010 =
      .command (.ledblink 0x402 0x401 0x8001 1) ∧
    decodeWord 0b0100100000000000000000000000000000000000000000001000000000000001 = .command (.emit 2 0x8001) := by decide

/-- DEC14 to DEC16: reserved opcodes. -/
theorem test_decode_illegal_opcode :
    decodeWord 0xA000000000000000 = .rejected .illegalOpcode ∧
    decodeWord 0xFFFFFFFFFFFFFFFF = .rejected .illegalOpcode ∧
    decodeWord 0xAC00000000000001 = .rejected .illegalOpcode := by decide

/-- DEC13 and DEC17 to DEC24: must-be-zero bits. -/
theorem test_decode_reserved_nonzero :
    decodeWord 0x93FFFFFFFFFFFFFF = .rejected .reservedNonzero ∧
    decodeWord 0x0000000000000001 = .rejected .reservedNonzero ∧
    decodeWord 0x0800000000000000 = .rejected .reservedNonzero ∧
    decodeWord 0x7000000000000001 = .rejected .reservedNonzero ∧
    decodeWord 0x7400000000000000 = .rejected .reservedNonzero ∧
    decodeWord 0x1000000000010000 = .rejected .reservedNonzero ∧
    decodeWord 0x8000000000000800 = .rejected .reservedNonzero ∧
    decodeWord 0x9040000000000000 = .rejected .reservedNonzero ∧
    decodeWord 0x2C00000000000001 = .rejected .reservedNonzero := by decide

/-- DEC25 to DEC30: channel 3. -/
theorem test_decode_illegal_channel :
    decodeWord 0x2C00000000000000 = .rejected .illegalChannel ∧
    decodeWord 0x1C0000000000FFFF = .rejected .illegalChannel ∧
    decodeWord 0x3C00000000000000 = .rejected .illegalChannel ∧
    decodeWord 0x4C00000000000000 = .rejected .illegalChannel ∧
    decodeWord 0x5C00000000000000 = .rejected .illegalChannel ∧
    decodeWord 0x6C00000000000000 = .rejected .illegalChannel := by decide

/-- The worked encodings of table L: LED6, LED15 and LED17. -/
theorem test_encode_words :
    encode (.ledblink 0x008 0x01F 499 500) = 0x90007D007CC0F808 ∧
    encode (.ledblink 0x2AA 0x555 65535 1) = 0x9000007FFFEAAAAA ∧
    encode (.ledblink 0x2AA 0x555 65535 65535) = 0x903FFFFFFFEAAAAA ∧
    encode (.calib 1) = 0x6400000000000000 := by decide

/-- A byte channel carries a word most significant byte first (R52), and seven bytes are no word. -/
theorem test_decode_bytes :
    decodeBytes [0x10, 0, 0, 0, 0, 0, 0, 0x64, 0xAA] = some (.command (.addsample 0 100), [0xAA]) ∧
    decodeBytes [0x10, 0, 0, 0, 0, 0, 0] = none := by decide

theorem test_decode_table_word :
    decodeTableWord 64 0x44000000000001F4 = some (.emit 1 500) ∧ decodeTableWord 64 0xA000000000000000 = none := by decide

/-! ## The sample path (tables E, Q and W) -/

/-- Table E: the empty range, a repeat, and a range that opens downward. -/
theorem test_expand :
    (expandMin 0xFFFF 300, expandMax 0 300) = (300, 300) ∧ (expandMin 0xFFFF 0, expandMax 0 0) = (0, 0) ∧
    (expandMin 0xFFFF 0xFFFF, expandMax 0 0xFFFF) = (0xFFFF, 0xFFFF) ∧
    (expandMin 300 299, expandMax 300 299) = (299, 300) ∧ quantize? 300 300 300 = none := by decide

/-- Table Q: the band edges over 100 to 900, and ranges of 1, 127, 128, 256 and 65535. -/
theorem test_quantize :
    ([(100, 900, 105, 16383), (100, 900, 106, 16261), (100, 900, 500, 8192), (100, 900, 894, 123), (100, 900, 895, 0),
      (0, 1023, 6, 16383), (0, 1023, 7, 16271), (0, 1023, 1016, 113), (0, 1023, 1017, 0), (0, 65535, 510, 16383),
      (0, 65535, 511, 16256), (0, 65535, 32768, 8192), (0, 65535, 65024, 128), (10, 11, 10, 16383), (10, 11, 11, 0),
      (0, 127, 1, 16254), (0, 128, 1, 16256), (0, 128, 127, 128), (0, 256, 1, 16383), (0, 256, 255, 0),
      (0, 4000, 700, 13516)] : List (Raw × Raw × Raw × Value)).all
        (fun v => quantize? v.1 v.2.1 v.2.2.1 == some v.2.2.2) = true := by decide

/-- Table W: W1 to W3. -/
theorem test_push :
    push [] 7 = [7] ∧ push [1, 2, 3, 4, 5, 6, 7] 8 = [1, 2, 3, 4, 5, 6, 7, 8] ∧
    push [1, 2, 3, 4, 5, 6, 7, 8] 9 = [2, 3, 4, 5, 6, 7, 8, 9] := by decide

/-- E7, over `ADDSAMPLE`: a new maximum widens the range and pushes 0. -/
theorem test_addsample_new_maximum :
    (nextOf (exec (.addsample 0 1000) (onRange 100 900))).map (fun t => (t.ch0, t.resp)) =
      some ({ Channel.fresh with min := 100, max := 1000, win := [0] }, 0) := by decide

/-- E1, over `ADDSAMPLE`: the first sample sets both ends and pushes nothing. -/
theorem test_addsample_first :
    (nextOf (exec (.addsample 1 300) State.reset)).map (fun t => t.ch1) =
      some { Channel.fresh with min := 300, max := 300 } := by decide

/-! ## Window functions (table M) -/

/-- M3 to M6, M8 and M9: the median of an even window. -/
theorem test_median :
    median? [0, 0, 0, 0, 16383, 16383, 16383, 16383] = some 8191 ∧ median? [10, 10, 10, 10, 13, 13, 13, 13] = some 11 ∧
    median? [1, 2, 3, 4, 5, 6, 7, 8] = some 4 ∧ median? [8, 7, 6, 5, 4, 3, 2, 1] = some 4 ∧
    median? [100, 100, 100, 101, 101, 101, 101, 101] = some 101 ∧
    median? [16383, 16261, 16240, 8192, 2192, 2171, 0, 0] = some 5192 ∧ median? [1, 2, 3] = none := by decide

/-- M1, M5 and M10, and seven equal entries. -/
theorem test_stable :
    stable (eight 5) = true ∧ stable [7, 7, 7, 7, 7, 7, 7, 9000] = false ∧ stable (List.replicate 7 5) = false ∧
    highest? [1, 8, 3] = some 8 ∧ lowest? [4, 1, 8] = some 1 := by decide

/-! ## Queries and emission (table V) -/

/-- V1 to V4. -/
theorem test_isstable :
    respOf (exec (.isstable 0) State.reset) = some 0 ∧
    respOf (exec (.isstable 0) (onChannel0 (List.replicate 7 5) false 0 0)) = some 0 ∧
    respOf (exec (.isstable 0) (onChannel0 (eight 5) false 0 0)) = some 1 := by decide

/-- V5, V7 and V8. -/
theorem test_curval :
    respOf (exec (.curval 0) (onChannel0 (eight 5) false 0 9)) = some 0 ∧
    respOf (exec (.curval 0) (onChannel0 [16383, 16261, 16240, 8192, 2192, 2171, 0, 0] true 0 0)) = some 0x00001448 ∧
    respOf (exec (.curval 0) (onChannel0 (eight 16383) true 0 0)) = some 0x00003FFF := by decide

/-- V13 and V14, the response and the state change of an emission. -/
theorem test_emit_emits :
    (nextOf (exec (.emit 0 5) (onChannel0 (eight 5) true 0 5))).map (fun t => (t.resp, t.ch0.last, t.ch0.cd)) =
      some (0x00010005, 5, 0) ∧
    respOf (exec (.emit 0 0) (onChannel0 (eight 16383) true 0 0)) = some 0x00017F7F ∧
    respOf (exec (.emit 0 0) (onChannel0 (eight 5173) true 16383 0)) = some 0x00012835 ∧
    respOf (exec (.emit 0 0) (onChannel0 (eight 0) true 5 0)) = some 0x00010000 := by decide

/-- V9, V11, V12 and V19: refused emissions, which change nothing. -/
theorem test_emit_refuses :
    nextOf (exec (.emit 0 0) (onChannel0 (eight 5) false 0 65535)) = some (onChannel0 (eight 5) false 0 65535) ∧
    nextOf (exec (.emit 0 0) (onChannel0 (eight 5) true 5 65535)) = some (onChannel0 (eight 5) true 5 65535) ∧
    nextOf (exec (.emit 0 5) (onChannel0 (eight 5) true 0 4)) = some (onChannel0 (eight 5) true 0 4) ∧
    nextOf (exec (.emit 0 0) (onChannel0 (eight 0) true 0 65535)) = some (onChannel0 (eight 0) true 0 65535) := by decide

/-! ## Control and LED commands (tables R, T and L) -/

/-- RC1: RESET clears its whole record and leaves another channel. -/
theorem test_reset :
    (nextOf (exec (.reset 0) (onChannel0 (eight 8192) true 8192 40))).map (fun t => t.ch0) = some Channel.fresh ∧
    (nextOf (exec (.reset 1) (onChannel0 (eight 8192) true 8192 40))).map (fun t => t.ch0.last) = some 8192 := by decide

/-- RC3 to RC5: CALIB is an assignment. -/
theorem test_calib :
    (nextOf (exec (.calib 0) (onChannel0 (eight 8192) false 0 0))).map (fun t => t.ch0.enabled) = some true ∧
    (nextOf (exec (.calib 0) (onChannel0 [8192, 8192, 8192, 8192, 8192, 8192, 8192, 8100] true 0 0))).map
      (fun t => t.ch0.enabled) = some false ∧
    (nextOf (exec (.calib 0) (onChannel0 (List.replicate 7 5) false 0 0))).map (fun t => t.ch0.enabled) = some false := by
  decide

/-- T2 and T3: every counter advances and saturates. -/
theorem test_tick :
    (nextOf (exec .tick { State.reset with
      ch1 := { Channel.fresh with cd := 499 }, ch2 := { Channel.fresh with cd := 65535 } })).map
        (fun t => (t.ch0.cd, t.ch1.cd, t.ch2.cd)) = some (1, 500, 65535) ∧
    tickCd 65534 = 65535 := by decide

theorem test_nop : nextOf (exec .nop (onChannel0 (eight 5) true 3 4)) = some (onChannel0 (eight 5) true 3 4) := by decide

/-- LED2 and LED4. -/
theorem test_ledset :
    (nextOf (exec (.ledset 5) State.reset)).map (fun t => (t.ledOut, t.resp, t.led 0, t.led 1, t.led 2)) =
      some (5, 5, true, false, true) ∧
    respOf (exec (.ledset 0x7FF) State.reset) = some 0x000007FF := by decide

/-- LED6, LED7, LED9, LED11, LED14 and LED17: the quotients 0, 1, 2 and 9, a half-period of 0, and the largest operands. -/
theorem test_ledblink :
    ([(0x008, 0x01F, 499, 500, 0x008), (0x008, 0x01F, 500, 500, 0x01F), (0x008, 0x01F, 1000, 500, 0x008),
      (0x008, 0x01F, 4999, 500, 0x01F), (0x7FF, 0x000, 12345, 0, 0x7FF), (0x2AA, 0x555, 65535, 65535, 0x555)] :
      List (Mask × Mask × Ticks × Ticks × Mask)).all
        (fun v => (nextOf (exec (.ledblink v.1 v.2.1 v.2.2.1 v.2.2.2.1) State.reset)).map State.ledOut == some v.2.2.2.2) =
      true := by decide

/-! ## The step -/

/-- P6, step 1, from reset: the next step after placing a word executes it and answers the host. -/
theorem test_step_runs_a_placed_word :
    (nextOf (step (State.reset.withFetchWord 64 0x8000000000000005))).map (fun t => (t.ledOut, t.responses)) =
      some (5, [⟨.host, 5⟩]) := by decide

/-- P6, step 7: a rejected word leaves the latch and answers its cause. -/
theorem test_step_rejects :
    (nextOf (step { presenting 0x8000000000000800 with ledOut := 0x01F })).map (fun t => (t.ledOut, t.responses)) =
      some (0x01F, [⟨.host, 0x80000002⟩]) := by decide

/-- The S-port rejects a sample of channel 3 with `s_err`, and the T-port ticks (R70, R72). -/
theorem test_step_other_ports :
    (nextOf (step { State.reset with samples := [⟨3, 7⟩] })).map (fun t => t.responses) =
      some [⟨.source, 0x80000003⟩] ∧
    (nextOf (step { State.reset with ticks := 2 })).map (fun t => (t.ch2.cd, t.ticks, t.responses)) =
      some (1, 1, [⟨.timebase, 0⟩]) := by decide

/-- The reset input drops what is presented and clears the registers (R210, R211). -/
theorem test_step_reset_input :
    nextOf (step { onChannel0 (eight 5) true 5 9 with rst := true, ledOut := 3, hostCmds := [1], samples := [⟨0, 1⟩], ticks := 1 }) =
      some State.reset := by decide

theorem test_step_idle : nextOf (step (onChannel0 (eight 5) true 5 9)) = some (onChannel0 (eight 5) true 5 9) := by decide

/-! ## Witnesses: each statement's hypotheses are met together -/

theorem witness_decodeOfEncode : (Instr.emit 2 500).WellFormed := by decide
theorem witness_encodeOfDecode : decodeWord 0x48000000000001F4 = .command (.emit 2 500) := by decide

/-- One word for each clause of the order of tests. -/
theorem witness_decodeTests :
    10 ≤ (0xA000000000000000 : CmdWord).toNat / 2 ^ 60 ∧
    ((0x9040000000000000 : CmdWord).toNat / 2 ^ 60 < 10 ∧ (0x9040000000000000 : CmdWord) &&& 0x0FC0000000000000 ≠ 0) ∧
    ((0x2C00000000000000 : CmdWord) &&& 0x03FFFFFFFFFFFFFF = 0 ∧ (0x2C00000000000000 : CmdWord).toNat / 2 ^ 58 % 4 = 3) ∧
    ((0x2800000000000000 : CmdWord) &&& 0x03FFFFFFFFFFFFFF = 0 ∧ (0x2800000000000000 : CmdWord).toNat / 2 ^ 58 % 4 ≠ 3) := by
  decide

theorem witness_bytes :
    (0x1000000000000064 : CmdWord).toNat =
      (((((((0x10 : BitVec 8).toNat * 256 + (0 : BitVec 8).toNat) * 256 + (0 : BitVec 8).toNat) * 256 +
        (0 : BitVec 8).toNat) * 256 + (0 : BitVec 8).toNat) * 256 + (0 : BitVec 8).toNat) * 256 +
          (0 : BitVec 8).toNat) * 256 + (0x64 : BitVec 8).toNat := by decide

theorem witness_stepRuns :
    (presenting 0x7000000000000000).rst = false ∧ (presenting 0x7000000000000000).arbitrate = some .host ∧
    (presenting 0x7000000000000000).presented .host = some 0x7000000000000000 ∧
    decodeWord 0x7000000000000000 = .command .tick := by decide

theorem witness_illegalWord :
    (presenting 0xA000000000000000).rst = false ∧ (presenting 0xA000000000000000).arbitrate = some .host ∧
    (presenting 0xA000000000000000).presented .host = some 0xA000000000000000 ∧
    decodeWord 0xA000000000000000 = .rejected .illegalOpcode := by decide

theorem witness_idle :
    State.reset.rst = false ∧ State.reset.hostCmds = [] ∧ State.reset.samples = [] ∧ State.reset.ticks = 0 := by decide

/-- A sample alone on its port, and a tick alone on its port. -/
theorem witness_ports :
    (({ State.reset with samples := [⟨3, 7⟩] } : State).rst = false ∧
      ({ State.reset with samples := [⟨3, 7⟩] } : State).arbitrate = some .source) ∧
    ({ State.reset with ticks := 1 } : State).ticks ≠ 0 := by decide

/-- Each clause of arbitration: nobody, somebody, and one alone. -/
theorem witness_arbitration :
    State.reset.arbitrate = none ∧ (presenting 0).arbitrate = some .host ∧
    ((presenting 0).presented .host).isSome = true ∧ (presenting 0).presented .source = none ∧
    (presenting 0).presented .timebase = none := by decide

theorem witness_oneResponse : (presenting 0).rst = false ∧ (nextOf (step (presenting 0))).isSome = true := by decide

theorem witness_resetInput : ({ State.reset with rst := true } : State).rst = true ∧ channel? 1 = some .c1 := by decide

theorem witness_inv : (onChannel0 (eight 5) true 5 9).Inv ∧ (nextOf (step (onChannel0 (eight 5) true 5 9))).isSome = true := by
  decide

/-- Both sides of where a command stops: a state no run reaches, and one that completes. -/
theorem witness_stops :
    channel? 0 = some .c0 ∧ (onChannel0 [5] true 0 0).ch0.enabled = true ∧ (onChannel0 [5] true 0 0).ch0.cnt ≠ 8 ∧
    (nextOf (exec (.curval 0) (onChannel0 [5] true 0 0))).isNone = true := by decide

theorem witness_queries :
    (nextOf (exec (.curval 0) (onChannel0 (eight 5) true 0 0))).isSome = true ∧ (Instr.reset 3).chField? = some 3 ∧
    (nextOf (exec (.reset 3) State.reset)).isSome = true := by decide

theorem witness_frames :
    channel? 0 = some .c0 ∧ (nextOf (exec (.addsample 0 1000) (onRange 100 900))).isSome = true ∧
    (nextOf (exec (.emit 0 5) (onChannel0 (eight 5) true 0 5))).isSome = true ∧
    (respOf (exec (.emit 0 5) (onChannel0 (eight 5) true 0 4))).map emittedNow = some false ∧
    (nextOf (exec (.reset 0) State.reset)).isSome = true ∧ (nextOf (exec (.calib 0) State.reset)).isSome = true ∧
    (nextOf (exec .tick State.reset)).isSome = true ∧ isLedCommand (.ledset 5) = true ∧ isLedCommand .tick = false := by decide

/-- Two states that agree on channel 0 and differ elsewhere, and a command of it. -/
theorem witness_seesOnlyItsChannel :
    (Instr.calib 0).chField? = some 0 ∧ channel? 0 = some .c0 ∧
    State.reset.chan .c0 = ({ State.reset with ledOut := 7, ch1 := { Channel.fresh with cd := 9 } } : State).chan .c0 ∧
    (nextOf (exec (.calib 0) State.reset)).isSome = true := by decide

theorem witness_onlyHost :
    ({ State.reset with ticks := 1 } : State).rst = false ∧ ({ State.reset with ticks := 1 } : State).arbitrate ≠ some .host ∧
    (nextOf (step { State.reset with ticks := 1 })).isSome = true := by decide

theorem witness_noReset : NoResetOf .c0 [.reset 1, .addsample 0 5, .tick] := by
  decide

theorem witness_growing : (nextOf (runCommands [.reset 1, .addsample 0 5, .tick] State.reset)).isSome = true := by decide

theorem witness_commuting :
    (Instr.emit 0 5).chField? = some 0 ∧ (Instr.addsample 1 7).chField? = some 1 ∧ channel? 0 = some .c0 ∧
    channel? 1 = some .c1 ∧ ChanId.c0 ≠ ChanId.c1 ∧
    (nextOf (runCommands [.emit 0 5, .addsample 1 7] (onChannel0 (eight 5) true 0 5))).isSome = true := by decide

theorem witness_idempotent :
    isLedCommand (.ledset 5) = true ∧ (nextOf (exec (.ledset 5) State.reset)).isSome = true ∧
    (nextOf (exec (.curval 0) (onChannel0 (eight 5) true 0 5))).isSome = true := by decide

/-- The sample path: a legal channel field, both range tests, and a range with its sample inside. -/
theorem witness_samplePath :
    (0 : ChField) ≠ 3 ∧ channel? 0 = some .c0 ∧ (100 : Raw) ≤ 900 ∧ (100 : Raw) < 900 ∧ (100 : Raw) ≤ 500 ∧ (500 : Raw) ≤ 501 ∧
    (501 : Raw) ≤ 900 ∧ (11 : Raw).toNat - (10 : Raw).toNat < 128 ∧ quantize? 100 900 500 = some 8192 ∧
    (quantize? 100 900 501).isSome = true := by decide

/-- Both excuses for a narrower range: a RESET of channel 0 that is served, and the reset input. -/
theorem witness_narrowing :
    let s : State := { onRange 100 900 with hostCmds := [0x5000000000000000] }
    s.arbitrate = some .host ∧ s.presented .host = some 0x5000000000000000 ∧
    decodeWord 0x5000000000000000 = .command (.reset 0) ∧ channel? 0 = some .c0 ∧
    (nextOf (step s)).map (fun t => t.ch0.min) = some 0xFFFF ∧
    (nextOf (step { s with rst := true })).map (fun t => t.ch0.min) = some 0xFFFF := by decide

/-- A word for each rejection of `RejectsReserved` and `RejectsChannelThree`, for a format with a channel and for one without. -/
theorem witness_rejections :
    ((0x1000000000010000 : CmdWord).toNat / 2 ^ 60 = 1 ∧ (0x1000000000010000 : CmdWord) &&& 0x03FFFFFFFFFF0000 ≠ 0) ∧
    ((0x7400000000000000 : CmdWord).toNat / 2 ^ 60 = 7 ∧ (0x7400000000000000 : CmdWord) &&& 0x0FFFFFFFFFFFFFFF ≠ 0) ∧
    ((0x1C0000000000FFFF : CmdWord).toNat / 2 ^ 60 = 1 ∧ (0x1C0000000000FFFF : CmdWord) &&& 0x03FFFFFFFFFF0000 = 0 ∧
      (0x1C0000000000FFFF : CmdWord).toNat / 2 ^ 58 % 4 = 3) := by decide

/-- Windows at the boundaries of the push and of the median: seven entries, eight, and a window with an entry. -/
theorem witness_windows :
    ([1, 2, 3, 4, 5, 6, 7] : List Value).length < 8 ∧ (eight 5).length = 8 ∧ ([1] : List Value) ≠ [] ∧
    ([1, 1, 1, 1, 3, 3, 3, 3] : List Nat).Perm (([3, 1, 3, 1, 3, 1, 3, 1] : List Value).map BitVec.toNat) ∧
    ([1, 1, 1, 1, 3, 3, 3, 3] : List Nat).Pairwise (· ≤ ·) := by decide

/-- Both gates of the queries: a disabled channel, and an enabled one with a full window. -/
theorem witness_gates :
    channel? 0 = some .c0 ∧ (onChannel0 (eight 5) false 0 9).ch0.enabled = false ∧
    (onChannel0 (eight 5) true 0 9).ch0.enabled = true ∧ (onChannel0 (eight 5) true 0 9).ch0.cnt = 8 := by decide

theorem witness_errClear :
    (Instr.emit 0 5).WellFormed ∧ (nextOf (exec (.emit 0 5) (onChannel0 (eight 5) true 0 5))).isSome = true := by decide

theorem witness_fourthCode : (Instr.calib 3).chField? = some 3 := by decide

theorem witness_answered : (presenting 0).Inv ∧ (presenting 0).rst = false := by decide

/-- An emission, a run without RESET that changes the median and ticks three times, and a second emission of threshold 3. -/
theorem witness_twoEmissions :
    NoResetOf .c0 [.addsample 0 900, .addsample 0 900, .addsample 0 900, .addsample 0 900, .addsample 0 900, .tick, .tick, .tick] ∧
    ((nextOf (runCommands [.emit 0 0] (onChannel0 (eight 5) true 9 0))).map fun t => emittedNow t.resp) = some true ∧
    ((nextOf (runCommands [.emit 0 0, .addsample 0 900, .addsample 0 900, .addsample 0 900, .addsample 0 900, .addsample 0 900,
      .tick, .tick, .tick, .emit 0 3] (onChannel0 (eight 5) true 9 0))).map fun t => emittedNow t.resp) = some true := by decide

theorem witness_noTicks :
    (onChannel0 (eight 5) true 0 0).ch0.cd = 0 ∧ Instr.tick ∉ [Instr.calib 0] ∧
    (nextOf (runCommands [.calib 0, .emit 0 3] (onChannel0 (eight 5) true 0 0))).isSome = true ∧ (3 : Ticks) ≠ 0 := by decide

theorem witness_eightSamples :
    channel? 0 = some .c0 ∧ (onChannel0 [1, 2, 3] false 0 0).ch0.cnt ≤ 8 ∧
    expandMin (onChannel0 [1, 2, 3] false 0 0).ch0.min 500 ≠ expandMax (onChannel0 [1, 2, 3] false 0 0).ch0.max 500 := by decide

theorem witness_constantInput :
    State.reset.chan .c0 = State.reset.chan .c0 ∧
    (∀ c r, Instr.addsample c r ∈ [Instr.addsample 0 512, Instr.addsample 1 7, Instr.calib 0] → channel? c = some .c0 → r = 512) ∧
    (nextOf (runCommands [.addsample 0 512, .addsample 1 7, .calib 0] State.reset)).isSome = true := by
  refine ⟨rfl, ?_, by decide⟩
  intro c r hi hc
  simp only [List.mem_cons, Instr.addsample.injEq, reduceCtorEq, List.not_mem_nil, or_false] at hi
  obtain ⟨-, rfl⟩ | ⟨rfl, -⟩ := hi
  · rfl
  · exact absurd hc (by decide)

end Sys2Proof.Machine.Tests
end

/-! Proofs about the state: its reset values, what every command leaves alone, the channel a command sees, and the
invariants (10_state.md rules R20, R27, R35 and R36). -/

namespace Sys2Proof.Machine

/-! ## Commands with a channel operand -/

/-- A command whose channel field names no channel is rejected, whatever the command is (R80). -/
theorem exec_of_channel?_eq_none {i : Instr} {c : ChField} (hi : i.chField? = some c) (hn : channel? c = none)
    (s : State) : exec i s = .next (s.reject .illegalChannel) := by
  cases i with
  | nop | tick | ledset _ | ledblink _ _ _ _ => cases hi
  | addsample c _ | isstable c | curval c | emit c _ | reset c | calib c =>
    cases hi
    exact withChannel_none hn s _

/-- A command of channel `k` that answers in `s` makes one record and one payload, the same in every state that agrees with
`s` on channel `k`, and it writes nothing else (R20). -/
theorem exec_eq_of_chan_eq {i : Instr} {c : ChField} {k : ChanId} {s t : State} (hi : i.chField? = some c)
    (hk : channel? c = some k) (h : exec i s = .next t) :
    ∃ ch p, ∀ s' : State, s'.chan k = s.chan k → exec i s' = .next ((s'.setChan k ch).complete p) := by
  cases i with
  | nop | tick | ledset _ | ledblink _ _ _ _ => cases hi
  | addsample c raw =>
    cases hi
    exact ⟨(s.chan k).addSample raw, 0, fun s' hs => hs ▸ withChannel_some hk s' _⟩
  | isstable c =>
    cases hi
    refine ⟨s.chan k, boolPayload (stable (s.chan k).win), fun s' hs => ?_⟩
    rw [← hs, setChan_chan]
    exact withChannel_some hk s' _
  | curval c =>
    cases hi
    obtain ⟨hn, -⟩ | ⟨j, hj, he, -⟩ | ⟨j, m, hj, he, hm, -⟩ := execCurval_next h
    · cases hk.symm.trans hn
    · cases hk.symm.trans hj
      refine ⟨s.chan k, 0, fun s' hs => ?_⟩
      rw [← hs] at he ⊢
      simp [exec, execCurval, withChannel_some hk, he]
    · cases hk.symm.trans hj
      refine ⟨s.chan k, valuePayload m, fun s' hs => ?_⟩
      rw [← hs] at he hm ⊢
      simp [exec, execCurval, withChannel_some hk, he, withMedian_some hm]
  | emit c thr =>
    cases hi
    obtain ⟨hn, -⟩ | ⟨j, hj, he, -⟩ | ⟨j, m, hj, he, hm, hg, -⟩ | ⟨j, m, hj, he, hm, hg, -⟩ := execEmit_next h
    · cases hk.symm.trans hn
    · cases hk.symm.trans hj
      refine ⟨s.chan k, 0, fun s' hs => ?_⟩
      rw [← hs] at he ⊢
      simp [exec, execEmit, withChannel_some hk, he]
    · cases hk.symm.trans hj
      refine ⟨s.chan k, 0, fun s' hs => ?_⟩
      rw [← hs] at he hm hg ⊢
      simp [exec, execEmit, withChannel_some hk, he, withMedian_some hm, hg]
    · cases hk.symm.trans hj
      refine ⟨(s.chan k).emitted m, emittedPayload m, fun s' hs => ?_⟩
      rw [← hs] at he hm hg ⊢
      simp [exec, execEmit, withChannel_some hk, he, withMedian_some hm, hg]
  | reset c =>
    cases hi
    exact ⟨Channel.fresh, 0, fun s' _ => withChannel_some hk s' _⟩
  | calib c =>
    cases hi
    exact ⟨(s.chan k).calibrated, 0, fun s' hs => hs ▸ withChannel_some hk s' _⟩

/-- A command of channel `k` leaves the other channels and the LED latch alone (R20, R36). -/
theorem exec_channel_frame {i : Instr} {c : ChField} {k : ChanId} {s t : State} (hi : i.chField? = some c)
    (hk : channel? c = some k) (h : exec i s = .next t) : (∀ j, j ≠ k → t.chan j = s.chan j) ∧ t.ledOut = s.ledOut := by
  obtain ⟨ch, p, hx⟩ := exec_eq_of_chan_eq hi hk h
  cases h.symm.trans (hx s rfl)
  exact ⟨fun j hj => by simp [hj], by simp⟩

/-- Settles O24: both states run the command to the same record and payload. -/
theorem channelCommandsSeeOnlyTheirChannel : Obligations.ChannelCommandsSeeOnlyTheirChannel := by
  intro i c k s s' t hi hk hs h
  refine ⟨?_, exec_channel_frame hi hk h⟩
  obtain ⟨ch, p, hx⟩ := exec_eq_of_chan_eq hi hk h
  cases h.symm.trans (hx s rfl)
  exact ⟨_, hx s' hs.symm, by simp⟩

/-! ## The invariants -/

theorem reset_inv : State.reset.Inv :=
  (inv_iff _).mpr fun k => by
    rw [chan_reset]
    exact fresh_inv

/-- After a sample the range is not the empty one of reset (R27 (c), R101). -/
theorem expandMin_le_expandMax (mn mx raw : Raw) : expandMin mn raw ≤ expandMax mx raw :=
  BitVec.le_trans (expand_bounds mn mx raw).1 (expand_bounds mn mx raw).2

/-- A range that is not zero stays so under a sample (R101). -/
theorem expandMin_lt_expandMax {mn mx : Raw} (h : mn < mx) (raw : Raw) : expandMin mn raw < expandMax mx raw := by
  rw [BitVec.lt_def] at h ⊢
  rw [expandMin_toNat, expandMax_toNat]
  omega

/-- A value is quantized only against a range that is not zero (R102). -/
theorem lt_of_quantize?_eq_some {mn mx raw : Raw} {v : Value} (h : quantize? mn mx raw = some v) : mn < mx := by
  have hne : quantize? mn mx raw ≠ none := by simp [h]
  rw [Ne, quantize?_eq_none_iff] at hne
  rw [BitVec.lt_def]
  omega

/-- A sample keeps a channel's invariants: the range takes the sample in, and a window that grows has a range and stays
full once it is (R27, R100). -/
theorem addSample_inv {ch : Channel} (h : ch.Inv) (raw : Raw) : (ch.addSample raw).Inv := by
  obtain ⟨hcnt, -, hlt, hen⟩ := h
  obtain ⟨-, heq⟩ | ⟨v, hq, heq⟩ := addSample_cases ch raw <;> rw [heq]
  · exact ⟨hcnt, .inr (expandMin_le_expandMax _ _ _), fun hne => expandMin_lt_expandMax (hlt hne) raw, hen⟩
  · have hlen := push_length hcnt v
    refine ⟨?_, .inr (expandMin_le_expandMax _ _ _), fun _ => lt_of_quantize?_eq_some hq, fun he => ?_⟩
    · change (push ch.win v).length ≤ 8
      split at hlen <;> omega
    · have hfull : ch.win.length = 8 := hen he
      rwa [hfull, if_neg (Nat.lt_irrefl 8)] at hlen

/-- The flag that CALIB assigns is set only on a full window (R27 (e), R144). -/
theorem calibrated_inv {ch : Channel} (h : ch.Inv) : ch.calibrated.Inv := by
  obtain ⟨hcnt, hrange, hlt, -⟩ := h
  exact ⟨hcnt, hrange, hlt, length_of_stable⟩

/-- Whatever a command does to a channel keeps its invariants; EMIT and TICK write only `last` and `cd`, which no invariant
names (R27). -/
theorem ChannelMove.inv {i : Instr} {k : ChanId} {ch ch' : Channel} (hm : ChannelMove i k ch ch') (h : ch.Inv) :
    ch'.Inv := by
  cases hm with
  | stay => exact h
  | sample c raw => exact addSample_inv h raw
  | emission c thr m => exact h
  | clear c => exact fresh_inv
  | judge c => exact calibrated_inv h
  | count => exact h

theorem exec_inv {i : Instr} {s t : State} (hs : s.Inv) (h : exec i s = .next t) : t.Inv :=
  (inv_iff t).mpr fun k => (exec_moves h k).inv ((inv_iff s).mp hs k)

theorem execWord_inv {w : CmdWord} {s t : State} (hs : s.Inv) (h : execWord w s = .next t) : t.Inv := by
  obtain ⟨i, -, hi⟩ | ⟨c, -, rfl⟩ := execWord_next h
  · exact exec_inv hs hi
  · exact hs

theorem serve_inv {s t : State} (hs : s.Inv) (h : serve s = .next t) : t.Inv := by
  obtain ⟨-, rfl⟩ | ⟨a, w, u, -, -, hu, rfl⟩ := serve_next h
  · exact hs
  · have haccept : (s.accept a).Inv := by
      rw [inv_iff] at hs ⊢
      simpa only [chan_accept] using hs
    have hexec : u.Inv := execWord_inv haccept hu
    exact hexec

theorem resetInput_inv (s : State) : s.resetInput.Inv := ⟨fresh_inv, fresh_inv, fresh_inv⟩

/-- Settles O17: the reset input leaves fresh channels, and serving a port moves each channel by at most one command. -/
theorem everyStepKeepsTheInvariants : Obligations.EveryStepKeepsTheInvariants := by
  intro s t hs h
  unfold step advance at h
  split at h
  · cases h
    exact resetInput_inv s
  · exact serve_inv hs h

/-- Settles O16. -/
theorem resetStateMeetsTheInvariants : Obligations.ResetStateMeetsTheInvariants := reset_inv

/-! ## What commands leave alone -/

/-- Settles O20: each of these commands ends in a completion or a rejection of the state as it is. -/
theorem queriesWriteNoRegister : Obligations.QueriesWriteNoRegister := by
  rintro i s t (rfl | ⟨c, rfl⟩ | ⟨c, rfl⟩ | hi) h
  · cases h
    rfl
  · obtain ⟨-, rfl⟩ | ⟨k, -, rfl⟩ := execIsstable_next h <;> rfl
  · obtain ⟨-, rfl⟩ | ⟨k, -, -, rfl⟩ | ⟨k, m, -, -, -, rfl⟩ := execCurval_next h <;> rfl
  · cases h.symm.trans (exec_of_channel?_eq_none hi rfl s)
    rfl

/-- Settles O21. -/
theorem addsampleFrame : Obligations.AddsampleFrame := by
  intro c raw k s t hk h
  obtain ⟨hother, hled⟩ := exec_channel_frame rfl hk h
  have hch : t.chan k = (s.chan k).addSample raw := by
    cases h.symm.trans (withChannel_some hk s _)
    simp
  rw [hch]
  exact ⟨addSample_enabled _ _, addSample_last _ _, addSample_cd _ _, hother, hled, exec_interface h⟩

/-- EMIT on channel `k` answers 0 and leaves the channel, or records the median it answers (R126). -/
theorem exec_emit_chan {c : ChField} {thr : Ticks} {k : ChanId} {s t : State} (hk : channel? c = some k)
    (h : exec (.emit c thr) s = .next t) :
    t.chan k = s.chan k ∨ ∃ m, t.chan k = (s.chan k).emitted m ∧ t.resp = completedWord (emittedPayload m) := by
  obtain ⟨-, rfl⟩ | ⟨j, -, -, rfl⟩ | ⟨j, m, -, -, -, -, rfl⟩ | ⟨j, m, hj, -, -, -, rfl⟩ := execEmit_next h
  · exact .inl (by simp)
  · exact .inl (by simp)
  · exact .inl (by simp)
  · cases hk.symm.trans hj
    exact .inr ⟨m, by simp⟩

/-- Settles O22: an emission's response has bit 16 set, so with the bit clear the channel stayed. -/
theorem emitFrame : Obligations.EmitFrame := by
  intro c thr k s t hk h
  obtain ⟨hother, hled⟩ := exec_channel_frame rfl hk h
  obtain hstay | ⟨m, hch, hresp⟩ := exec_emit_chan hk h
  · rw [hstay]
    exact ⟨rfl, rfl, rfl, rfl, fun _ => rfl, hother, hled, exec_interface h⟩
  · rw [hch, hresp, emittedNow_emitted]
    exact ⟨rfl, rfl, rfl, rfl, nofun, hother, hled, exec_interface h⟩

/-- An LED command ends in a rendering (R160, R161). -/
theorem exec_led_next {i : Instr} {s t : State} (hi : isLedCommand i = true) (h : exec i s = .next t) :
    ∃ m, t = s.render m := by
  cases i with
  | ledset _ | ledblink _ _ _ _ =>
    cases h
    exact ⟨_, rfl⟩
  | nop | addsample _ _ | isstable _ | curval _ | emit _ _ | reset _ | calib _ | tick => cases hi

/-- Settles O23: RESET and CALIB by the frame of the channel commands, TICK and the LED commands by what they write. -/
theorem controlAndLedFrames : Obligations.ControlAndLedFrames := by
  refine ⟨fun c k s t hk h => ?_, fun c k s t hk h => ?_, fun s t h => ?_, fun i s t hi h => ?_⟩
  · obtain ⟨hother, hled⟩ := exec_channel_frame rfl hk h
    exact ⟨hother, hled, exec_interface h⟩
  · obtain ⟨hother, hled⟩ := exec_channel_frame rfl hk h
    have hch : t.chan k = (s.chan k).calibrated := by
      cases h.symm.trans (withChannel_some hk s _)
      simp
    rw [hch]
    exact ⟨rfl, hother, hled, exec_interface h⟩
  · refine ⟨fun k => ?_, ?_, exec_interface h⟩ <;> cases h
    · rw [chan_complete, chan_mapChans]
      rfl
    · rfl
  · refine ⟨?_, exec_interface h⟩
    obtain ⟨m, rfl⟩ := exec_led_next hi h
    exact chan_render s m

/-! ## Reset values -/

/-- Settles O13. -/
theorem everyRegisterHasItsResetValue : Obligations.EveryRegisterHasItsResetValue := by
  refine ⟨⟨chan_reset, rfl⟩, fun c k s hk => ⟨_, withChannel_some hk s _, ?_, ?_⟩⟩
  · rw [chan_complete, chan_setChan_same]
    rfl
  · rw [complete_ledOut, setChan_ledOut]

end Sys2Proof.Machine

/-! Proofs about who writes which register, what only grows, and what a repeated command does (20_memory.md rules R54 and R58,
70_reset_and_hazards.md rule R222). -/

namespace Sys2Proof.Machine

/-! ## What the sample source and the timebase can write -/

/-- An S-port transaction has the opcode of ADDSAMPLE, so it decodes to nothing else (R72). -/
theorem addsample_of_decodeWord_sourceWord {x : Sample} {i : Instr} (h : decodeWord (sourceWord x) = .command i) :
    ∃ c raw, i = .addsample c raw := by
  have hop : (fieldOp (sourceWord x)).toNat = 1 := by
    rw [fieldOp_toNat, show sourceWord x = encode (.addsample x.ch x.raw) from rfl, encode_addsample_toNat]
    omega
  obtain ⟨f, hrow, -, -⟩ := (decodeWord_eq_command_iff _ _).mp h
  simp only [opcodeRow?, hop, Option.some.injEq, Prod.mk.injEq] at hrow
  exact ⟨_, _, hrow.2.symm⟩

/-- The agents other than the host present ADDSAMPLE and TICK alone (R58, R72). -/
theorem addsample_or_tick_of_presented {s : State} {a : Agent} {w : CmdWord} {i : Instr} (ha : a ≠ .host)
    (hw : s.presented a = some w) (hi : decodeWord w = .command i) : (∃ c raw, i = .addsample c raw) ∨ i = .tick := by
  cases a with
  | host => exact absurd rfl ha
  | source =>
    obtain ⟨x, -, rfl⟩ := Option.map_eq_some_iff.mp hw
    exact .inl (addsample_of_decodeWord_sourceWord hi)
  | timebase =>
    obtain ⟨-, hw⟩ := Option.ite_none_left_eq_some.mp hw
    cases hw
    cases (show decodeWord timebaseWord = .command .tick by decide).symm.trans hi
    exact .inr rfl

/-- Of all moves of a channel, those of ADDSAMPLE and TICK write neither `enabled` nor `last` (R36). -/
theorem ChannelMove.enabled_last_of_addsample_or_tick {i : Instr} {k : ChanId} {ch ch' : Channel}
    (hm : ChannelMove i k ch ch') (hi : (∃ c raw, i = .addsample c raw) ∨ i = .tick) :
    ch'.enabled = ch.enabled ∧ ch'.last = ch.last := by
  cases hm with
  | stay => exact ⟨rfl, rfl⟩
  | sample c raw => exact ⟨addSample_enabled ch raw, addSample_last ch raw⟩
  | count => exact ⟨rfl, rfl⟩
  | emission _ _ _ hj | clear _ hj | judge _ hj => simp [hj] at hi

/-- No command but an LED command writes the LED latch (R36, R162). -/
theorem exec_ledOut_of_not_led {i : Instr} {s t : State} (hi : isLedCommand i = false) (h : exec i s = .next t) :
    t.ledOut = s.ledOut := by
  cases hf : i.chField? with
  | some c =>
    cases hc : channel? c with
    | none =>
      cases h.symm.trans (exec_of_channel?_eq_none hf hc s)
      rfl
    | some k => exact (exec_channel_frame hf hc h).2
  | none =>
    cases i with
    | nop | tick =>
      cases h
      rfl
    | ledset _ | ledblink _ _ _ _ => cases hi
    | addsample _ _ | isstable _ | curval _ | emit _ _ | reset _ | calib _ => cases hf

/-- Settles O26: what such a step executes is an ADDSAMPLE or a TICK, or a word it rejects. -/
theorem onlyTheHostWritesEnabledLastAndLeds : Obligations.OnlyTheHostWritesEnabledLastAndLeds := by
  intro s t hrst hhost h
  simp only [step, advance, hrst, Bool.false_eq_true, if_false] at h
  obtain ⟨-, rfl⟩ | ⟨a, w, u, ha, hw, hu, rfl⟩ := serve_next h
  · exact ⟨fun _ => ⟨rfl, rfl⟩, rfl⟩
  · obtain ⟨i, hi, hx⟩ | ⟨c, -, rfl⟩ := execWord_next hu
    · have hcmd : (∃ c raw, i = .addsample c raw) ∨ i = .tick :=
        addsample_or_tick_of_presented (fun hc => hhost (hc ▸ ha)) hw hi
      have hled : isLedCommand i = false := by
        obtain ⟨c, raw, rfl⟩ | rfl := hcmd <;> rfl
      refine ⟨fun k => ?_, ?_⟩
      · simpa only [chan_deliver, chan_accept] using (exec_moves hx k).enabled_last_of_addsample_or_tick hcmd
      · simpa only [deliver_ledOut, accept_ledOut] using exec_ledOut_of_not_led hled hx
    · simp

/-! ## What only grows -/

/-- The window is no shorter and the range no narrower in `ch'` than in `ch` (R58 (e)). -/
def Channel.GrowsTo (ch ch' : Channel) : Prop := ch.cnt ≤ ch'.cnt ∧ ch'.min ≤ ch.min ∧ ch.max ≤ ch'.max

theorem Channel.GrowsTo.refl (ch : Channel) : ch.GrowsTo ch := ⟨Nat.le_refl _, BitVec.le_refl _, BitVec.le_refl _⟩

theorem Channel.GrowsTo.trans {a b c : Channel} (hab : a.GrowsTo b) (hbc : b.GrowsTo c) : a.GrowsTo c := by
  obtain ⟨hcnt, hmin, hmax⟩ := hab
  obtain ⟨hcnt', hmin', hmax'⟩ := hbc
  exact ⟨Nat.le_trans hcnt hcnt', BitVec.le_trans hmin' hmin, BitVec.le_trans hmax hmax'⟩

/-- One sample pushes at most, and Expand never gives range back (R100, R101, R104). -/
theorem growsTo_addSample (ch : Channel) (raw : Raw) : ch.GrowsTo (ch.addSample raw) := by
  refine ⟨?_, ?_, ?_⟩
  · obtain ⟨-, h⟩ | ⟨v, -, h⟩ := addSample_cases ch raw <;> rw [h]
    · exact Nat.le_refl _
    · exact length_le_push ch.win v
  · rw [addSample_min, BitVec.le_def, expandMin_toNat]
    omega
  · rw [addSample_max, BitVec.le_def, expandMax_toNat]
    omega

/-- RESET of the channel is the only move that gives back range or window (R58 (e)). -/
theorem ChannelMove.growsTo {i : Instr} {k : ChanId} {ch ch' : Channel} (hm : ChannelMove i k ch ch')
    (hi : ∀ c, i = .reset c → channel? c ≠ some k) : ch.GrowsTo ch' := by
  cases hm with
  | stay => exact .refl ch
  | sample c raw => exact growsTo_addSample ch raw
  | clear c hj hc => exact absurd hc (hi c hj)
  | emission _ _ _ _ _ _ _ _ | judge _ _ _ | count _ => exact .refl ch

theorem runCommands_growsTo {k : ChanId} {is : List Instr} {s t : State} (hno : NoResetOf k is)
    (h : runCommands is s = .next t) : (s.chan k).GrowsTo (t.chan k) := by
  induction is generalizing s with
  | nil =>
    cases h
    exact .refl _
  | cons i is ih =>
    obtain ⟨u, hu, hrest⟩ := runCommands_cons_next h
    have hhead : (s.chan k).GrowsTo (u.chan k) :=
      (exec_moves hu k).growsTo fun c hc => hno c (hc ▸ List.mem_cons_self)
    exact hhead.trans (ih (fun c hc => hno c (List.mem_cons_of_mem i hc)) hrest)

/-- Settles O27. -/
theorem rangeAndWindowOnlyGrow : Obligations.RangeAndWindowOnlyGrow :=
  fun _ _ _ _ hno h => runCommands_growsTo hno h

/-! ## What a repeated command does -/

@[simp] theorem complete_complete (s : State) (p q : Payload) : (s.complete p).complete q = s.complete q := rfl

@[simp] theorem setChan_complete (s : State) (k : ChanId) (ch : Channel) (p : Payload) :
    (s.complete p).setChan k ch = (s.setChan k ch).complete p := by
  cases k <;> rfl

@[simp] theorem calibrated_calibrated (ch : Channel) : ch.calibrated.calibrated = ch.calibrated := rfl

/-- A command whose channel field names no channel is rejected again, the same way (R80). -/
theorem exec_again_of_channel?_eq_none {i : Instr} {c : ChField} {s t : State} (hi : i.chField? = some c)
    (hn : channel? c = none) (h : exec i s = .next t) : exec i t = .next t := by
  cases h.symm.trans (exec_of_channel?_eq_none hi hn s)
  exact exec_of_channel?_eq_none hi hn _

/-- A command of channel `k` that left the channel as it was finds it so again (R20, R54). -/
theorem exec_again_of_chan_eq {i : Instr} {c : ChField} {k : ChanId} {s t : State} (hi : i.chField? = some c)
    (hk : channel? c = some k) (h : exec i s = .next t) (hch : t.chan k = s.chan k) : exec i t = .next t := by
  obtain ⟨ch, p, hx⟩ := exec_eq_of_chan_eq hi hk h
  rw [hx t hch]
  cases h.symm.trans (hx s rfl)
  simp

/-- A query answers the same again, since it writes no register (R36, R54). -/
theorem exec_query_again {i : Instr} {c : ChField} {s t : State} (hq : i = .isstable c ∨ i = .curval c)
    (h : exec i s = .next t) : exec i t = .next t := by
  have hi : i.chField? = some c := by
    obtain rfl | rfl := hq <;> rfl
  have hsame : t = { s with resp := t.resp } :=
    queriesWriteNoRegister i s t (.inr (hq.imp (⟨c, ·⟩) fun hc => .inl ⟨c, hc⟩)) h
  cases hc : channel? c with
  | none => exact exec_again_of_channel?_eq_none hi hc h
  | some k =>
    refine exec_again_of_chan_eq hi hc h ?_
    rw [hsame]
    cases k <;> rfl

/-- A channel is fresh after RESET, and fresh again after another (R54, R140). -/
theorem exec_reset_again {c : ChField} {s t : State} (h : exec (.reset c) s = .next t) :
    exec (.reset c) t = .next t := by
  obtain ⟨hn, -⟩ | ⟨k, hk, rfl⟩ := execReset_next h
  · exact exec_again_of_channel?_eq_none rfl hn h
  · simp [exec, execReset, withChannel_some hk]

/-- CALIB assigns from the window, which it does not write (R54, R143). -/
theorem exec_calib_again {c : ChField} {s t : State} (h : exec (.calib c) s = .next t) :
    exec (.calib c) t = .next t := by
  obtain ⟨hn, -⟩ | ⟨k, hk, rfl⟩ := execCalib_next h
  · exact exec_again_of_channel?_eq_none rfl hn h
  · simp [exec, execCalib, withChannel_some hk]

/-- An LED command renders a mask that depends on its operands alone (R162). -/
theorem exec_led_again {i : Instr} {s t : State} (hi : isLedCommand i = true) (h : exec i s = .next t) :
    exec i t = .next t := by
  cases i with
  | ledset _ | ledblink _ _ _ _ =>
    cases h
    rfl
  | nop | addsample _ _ | isstable _ | curval _ | emit _ _ | reset _ | calib _ | tick => cases hi

/-- Settles O29, command by command. -/
theorem repeatedCommandsAreIdempotent : Obligations.RepeatedCommandsAreIdempotent := by
  rintro i s t (⟨c, hq⟩ | ⟨c, hq⟩ | ⟨c, rfl⟩ | ⟨c, rfl⟩ | hled) h
  · exact exec_query_again (.inl hq) h
  · exact exec_query_again (.inr hq) h
  · exact exec_reset_again h
  · exact exec_calib_again h
  · exact exec_led_again hled h

end Sys2Proof.Machine

/-! Proofs about the encoding: one equation says which words decode to a command, and the round trip, the order of the
tests and the opcode table follow from it (30_encoding.md rules R74 to R84). -/

namespace Sys2Proof

/-! ## The row of a command -/

/-- The opcode of a command (R76). -/
def Instr.opcode : Instr → BitVec 4
  | .nop => 0
  | .addsample _ _ => 1
  | .isstable _ => 2
  | .curval _ => 3
  | .emit _ _ => 4
  | .reset _ => 5
  | .calib _ => 6
  | .tick => 7
  | .ledset _ => 8
  | .ledblink _ _ _ _ => 9

/-- The format of a command (R76). -/
def Instr.format : Instr → Format
  | .nop | .tick => .n
  | .isstable _ | .curval _ | .reset _ | .calib _ => .c
  | .addsample _ _ | .emit _ _ => .s
  | .ledset _ => .m
  | .ledblink _ _ _ _ => .b

/-- The operands of the command are the fields of the word that its format gives them (R74, R77). -/
def Instr.OperandsIn (w : CmdWord) : Instr → Prop
  | .nop | .tick => True
  | .isstable c | .curval c | .reset c | .calib c => c = fieldCh w
  | .addsample c imm | .emit c imm => c = fieldCh w ∧ imm = fieldImm16 w
  | .ledset mask => mask = fieldMask w
  | .ledblink maskA maskB elapsed half =>
    maskA = fieldMask w ∧ maskB = fieldMaskB w ∧ elapsed = fieldElapsed w ∧ half = fieldHalf w

/-- The opcode map gives a command exactly where the opcode is its own and the operands stand in the word. -/
theorem opcodeRow?_eq_some_iff (op : BitVec 4) (w : CmdWord) (f : Format) (i : Instr) :
    opcodeRow? op w = some (f, i) ↔ op = i.opcode ∧ f = i.format ∧ i.OperandsIn w := by
  constructor
  · intro h
    unfold opcodeRow? at h
    split at h <;> cases h <;>
      exact ⟨BitVec.eq_of_toNat_eq ‹_›, rfl, by simp [Instr.OperandsIn]⟩
  · rintro ⟨rfl, rfl, hw⟩
    cases i with
    | nop | tick => rfl
    | isstable c | curval c | reset c | calib c | ledset mask =>
      cases hw
      rfl
    | addsample c imm | emit c imm =>
      obtain ⟨rfl, rfl⟩ := hw
      rfl
    | ledblink maskA maskB elapsed half =>
      obtain ⟨rfl, rfl, rfl, rfl⟩ := hw
      rfl

/-- The channel operand stands in the channel field of the formats that have one (R74). -/
theorem chField?_of_operandsIn {w : CmdWord} {i : Instr} (h : i.OperandsIn w) :
    i.chField? = if i.format.hasChannel then some (fieldCh w) else none := by
  cases i with
  | nop | tick | ledset _ | ledblink _ _ _ _ => rfl
  | isstable c | curval c | reset c | calib c =>
    cases h
    rfl
  | addsample c imm | emit c imm =>
    obtain ⟨rfl, -⟩ := h
    rfl

/-- A command is well-formed where its channel operand, if it has one, is not 3 (R76, R80). -/
theorem Instr.wellFormed_iff (i : Instr) : i.WellFormed ↔ ∀ c, i.chField? = some c → c ≠ 3 := by
  rw [Instr.WellFormed, Instr.wf]
  cases i.chField? <;> simp

theorem wellFormed_iff_of_operandsIn {w : CmdWord} {i : Instr} (h : i.OperandsIn w) :
    i.WellFormed ↔ (i.format.hasChannel = true → fieldCh w ≠ 3) := by
  rw [Instr.wellFormed_iff, chField?_of_operandsIn h]
  cases i.format.hasChannel <;> simp

/-! ## The word of each format -/

theorem fieldImm16_toNat (w : CmdWord) : (fieldImm16 w).toNat = w.toNat % 2 ^ 16 := by
  simp [fieldImm16]

theorem fieldMask_toNat (w : CmdWord) : (fieldMask w).toNat = w.toNat % 2 ^ 11 := by
  simp [fieldMask]

theorem fieldMaskB_toNat (w : CmdWord) : (fieldMaskB w).toNat = w.toNat / 2 ^ 11 % 2 ^ 11 := by
  simp [fieldMaskB, Nat.shiftRight_eq_div_pow]

theorem fieldElapsed_toNat (w : CmdWord) : (fieldElapsed w).toNat = w.toNat / 2 ^ 22 % 2 ^ 16 := by
  simp [fieldElapsed, Nat.shiftRight_eq_div_pow]

theorem fieldHalf_toNat (w : CmdWord) : (fieldHalf w).toNat = w.toNat / 2 ^ 38 % 2 ^ 16 := by
  simp [fieldHalf, Nat.shiftRight_eq_div_pow]

theorem formatN_eq_iff (op : BitVec 4) (w : CmdWord) :
    (op ++ 0#60 : BitVec 64) = w ↔ fieldOp w = op ∧ w &&& Format.n.mbz = 0 := by
  rw [and_mbz_eq_zero_iff]
  simp only [← BitVec.toNat_inj, toNat_append_mul, BitVec.toNat_ofNat, fieldOp_toNat]
  omega

theorem formatC_eq_iff (op : BitVec 4) (c : ChField) (w : CmdWord) :
    (op ++ c ++ 0#58 : BitVec 64) = w ↔ fieldOp w = op ∧ w &&& Format.c.mbz = 0 ∧ c = fieldCh w := by
  rw [and_mbz_eq_zero_iff]
  simp only [← BitVec.toNat_inj, toNat_append_mul, BitVec.toNat_ofNat, fieldOp_toNat,
    fieldCh_toNat]
  omega

theorem formatS_eq_iff (op : BitVec 4) (c : ChField) (imm : BitVec 16) (w : CmdWord) :
    (op ++ c ++ 0#42 ++ imm : BitVec 64) = w ↔
      fieldOp w = op ∧ w &&& Format.s.mbz = 0 ∧ c = fieldCh w ∧ imm = fieldImm16 w := by
  rw [and_mbz_eq_zero_iff]
  simp only [← BitVec.toNat_inj, toNat_append_mul, BitVec.toNat_ofNat, fieldOp_toNat,
    fieldCh_toNat, fieldImm16_toNat]
  omega

theorem formatM_eq_iff (op : BitVec 4) (mask : Mask) (w : CmdWord) :
    (op ++ 0#49 ++ mask : BitVec 64) = w ↔ fieldOp w = op ∧ w &&& Format.m.mbz = 0 ∧ mask = fieldMask w := by
  rw [and_mbz_eq_zero_iff]
  simp only [← BitVec.toNat_inj, toNat_append_mul, BitVec.toNat_ofNat, fieldOp_toNat,
    fieldMask_toNat]
  omega

theorem formatB_eq_iff (op : BitVec 4) (maskA maskB : Mask) (elapsed half : Ticks) (w : CmdWord) :
    (op ++ 0#6 ++ half ++ elapsed ++ maskB ++ maskA : BitVec 64) = w ↔
      fieldOp w = op ∧ w &&& Format.b.mbz = 0 ∧
        maskA = fieldMask w ∧ maskB = fieldMaskB w ∧ elapsed = fieldElapsed w ∧ half = fieldHalf w := by
  rw [and_mbz_eq_zero_iff]
  simp only [← BitVec.toNat_inj, toNat_append_mul, BitVec.toNat_ofNat, fieldOp_toNat,
    fieldMask_toNat, fieldMaskB_toNat, fieldElapsed_toNat, fieldHalf_toNat]
  omega

/-- The word of a command is the one word with its opcode, its operands, and its format's must-be-zero bits clear (R84). -/
theorem encode_eq_iff (i : Instr) (w : CmdWord) :
    encode i = w ↔ fieldOp w = i.opcode ∧ w &&& i.format.mbz = 0 ∧ i.OperandsIn w := by
  cases i with
  | nop | tick => exact (formatN_eq_iff _ w).trans (by simp [Instr.opcode, Instr.format, Instr.OperandsIn])
  | isstable c | curval c | reset c | calib c => exact formatC_eq_iff _ c w
  | addsample c imm | emit c imm => exact formatS_eq_iff _ c imm w
  | ledset mask => exact formatM_eq_iff _ mask w
  | ledblink maskA maskB elapsed half => exact formatB_eq_iff _ maskA maskB elapsed half w

/-! ## Decoding and encoding -/

/-- A word decodes to a command exactly when it is the word of that command and the command is well-formed (R84). -/
theorem decodeWord_eq_command_iff_encode (w : CmdWord) (i : Instr) :
    decodeWord w = .command i ↔ encode i = w ∧ i.WellFormed := by
  simp only [decodeWord_eq_command_iff, opcodeRow?_eq_some_iff, encode_eq_iff]
  constructor
  · rintro ⟨f, ⟨hop, rfl, hfields⟩, hz, hc⟩
    exact ⟨⟨hop, hz, hfields⟩, (wellFormed_iff_of_operandsIn hfields).mpr hc⟩
  · rintro ⟨⟨hop, hz, hfields⟩, hwf⟩
    exact ⟨_, ⟨hop, rfl, hfields⟩, hz, (wellFormed_iff_of_operandsIn hfields).mp hwf⟩

/-- Settles O2: a well-formed command's word is its own, so it decodes to the command. -/
theorem decodeOfEncodeIsTheCommand : Obligations.DecodeOfEncodeIsTheCommand := fun i hwf =>
  (decodeWord_eq_command_iff_encode (encode i) i).mpr ⟨rfl, hwf⟩

/-- Settles O3. -/
theorem encodeOfDecodeIsTheWord : Obligations.EncodeOfDecodeIsTheWord := fun w i =>
  (decodeWord_eq_command_iff_encode w i).mp

/-- Settles O1: each word is its command's, and the round trip gives the decoding. -/
theorem workedEncodingsOfTheSpec : Obligations.WorkedEncodingsOfTheSpec := by
  intro p hp
  have henc : encode p.1 = p.2 ∧ p.1.WellFormed := by
    revert p
    decide
  exact ⟨henc.1, (decodeWord_eq_command_iff_encode p.2 p.1).mpr henc⟩

/-! ## The order of the tests -/

/-- Every opcode below 0xA is the opcode of one command with operands in the word (R76). -/
theorem exists_operandsIn_of_lt {w : CmdWord} (h : w.toNat / 2 ^ 60 < 10) :
    ∃ i : Instr, fieldOp w = i.opcode ∧ i.OperandsIn w := by
  obtain ⟨⟨f, i⟩, hrow⟩ := Option.isSome_iff_exists.mp ((opcodeRow?_isSome_iff w).mpr h)
  obtain ⟨hop, -, hfields⟩ := (opcodeRow?_eq_some_iff _ w f i).mp hrow
  exact ⟨i, hop, hfields⟩

/-- The tests after the opcode test are those of the format of the opcode's command (R84). -/
theorem decodeWord_of_operandsIn {w : CmdWord} {i : Instr} (hop : fieldOp w = i.opcode) (hfields : i.OperandsIn w) :
    decodeWord w =
      if w &&& i.format.mbz ≠ 0 then .rejected .reservedNonzero
      else if i.format.hasChannel = true ∧ fieldCh w = 3 then .rejected .illegalChannel
      else .command i := by
  rw [decodeWord, (opcodeRow?_eq_some_iff _ w _ i).mpr ⟨hop, rfl, hfields⟩]

theorem decodeWord_of_opcode_ge {w : CmdWord} (h : 10 ≤ w.toNat / 2 ^ 60) : decodeWord w = .rejected .illegalOpcode := by
  have hnone : opcodeRow? (fieldOp w) w = none := by
    rw [← Option.not_isSome_iff_eq_none, opcodeRow?_isSome_iff]
    omega
  rw [decodeWord, hnone]

/-- The must-be-zero mask that rule R84 gives each opcode. -/
def mbzOfOpcode (op : Nat) : CmdWord :=
  if op = 0 ∨ op = 7 then 0x0FFFFFFFFFFFFFFF
  else if op = 2 ∨ op = 3 ∨ op = 5 ∨ op = 6 then 0x03FFFFFFFFFFFFFF
  else if op = 1 ∨ op = 4 then 0x03FFFFFFFFFF0000
  else if op = 8 then 0x0FFFFFFFFFFFF800
  else 0x0FC0000000000000

theorem format_mbz (i : Instr) : i.format.mbz = mbzOfOpcode i.opcode.toNat := by
  cases i <;> rfl

/-- The opcodes 1 to 6 are those with a channel field (R76). -/
theorem format_hasChannel (i : Instr) :
    i.format.hasChannel = decide (1 ≤ i.opcode.toNat ∧ i.opcode.toNat ≤ 6) := by
  cases i <;> rfl

theorem fieldCh_eq_three_iff (w : CmdWord) : fieldCh w = 3 ↔ w.toNat / 2 ^ 58 % 4 = 3 := by
  rw [← BitVec.toNat_inj, fieldCh_toNat]
  rfl

/-- Settles O4: below 0xA the tests are those of one command's format, which its opcode names. -/
theorem decodeTestsInOrder : Obligations.DecodeTestsInOrder := by
  intro w op mbz hasChannel
  refine ⟨decodeWord_of_opcode_ge, ?_⟩
  by_cases hlt : op < 10
  · obtain ⟨i, hop, hfields⟩ := exists_operandsIn_of_lt hlt
    have hopNat : op = i.opcode.toNat := by rw [← hop, fieldOp_toNat]
    have hmbz : i.format.mbz = mbz := by
      rw [format_mbz, ← hopNat]
      rfl
    have hchan : i.format.hasChannel = true ↔ hasChannel := by rw [format_hasChannel, ← hopNat, decide_eq_true_iff]
    have hdec := decodeWord_of_operandsIn hop hfields
    simp only [hmbz, hchan, fieldCh_eq_three_iff] at hdec
    refine ⟨fun _ hz => ?_, fun _ hz hc h3 => ?_, fun _ hz hc => ⟨i, ?_⟩⟩
    · rw [hdec, if_pos hz]
    · rw [hdec, if_neg (not_not.mpr hz), if_pos ⟨hc, h3⟩]
    · rw [hdec, if_neg (not_not.mpr hz), if_neg fun h => hc h.1 h.2]
  · exact ⟨fun h => absurd h hlt, fun h => absurd h hlt, fun h => absurd h hlt⟩

/-! ## The opcode table -/

/-- The opcode and the format of each row of the opcode table, in its order (R76). -/
def opcodeFormats : List (Nat × Format) :=
  [(0, .n), (1, .s), (2, .c), (3, .c), (4, .s), (5, .c), (6, .c), (7, .n), (8, .m), (9, .b)]

/-- The row of the opcode table that fixes an opcode and the must-be-zero bits of a format (R84). -/
def TableRow.ofOpcodeFormat (p : Nat × Format) : TableRow :=
  ⟨BitVec.ofNat 64 (p.1 * 2 ^ 60), 0xF000000000000000 ||| p.2.mbz, p.2⟩

theorem opcodeTable_eq_map : opcodeTable = opcodeFormats.map TableRow.ofOpcodeFormat := opcodeTable_eq

/-- Each command has one row in the table. -/
theorem count_opcodeFormats (i : Instr) : opcodeFormats.count (i.opcode.toNat, i.format) = 1 := by
  cases i <;> rfl

/-- A row with a command's opcode is the command's row. -/
theorem eq_of_mem_opcodeFormats {p : Nat × Format} (hp : p ∈ opcodeFormats) {i : Instr} (h : p.1 = i.opcode.toNat) :
    p = (i.opcode.toNat, i.format) := by
  have hnodup : (opcodeFormats.map Prod.fst).Nodup := by decide
  have hi : (i.opcode.toNat, i.format) ∈ opcodeFormats := List.count_pos_iff.mp (by rw [count_opcodeFormats]; omega)
  exact List.inj_on_of_nodup_map hnodup hp hi h

/-- The instances of a row are the words that decode to a command of that row (R76). -/
theorem isInstanceWord_iff_decodeWord (w : CmdWord) {p : Nat × Format} (hp : p ∈ opcodeFormats) :
    (TableRow.ofOpcodeFormat p).isInstanceWord w = true ↔
      ∃ i : Instr, decodeWord w = .command i ∧ p = (i.opcode.toNat, i.format) := by
  have hlt : ∀ q ∈ opcodeFormats, q.1 < 10 := by decide
  have hp10 := hlt p hp
  rw [TableRow.ofOpcodeFormat, isInstanceWord_iff w p.2 (by omega)]
  simp only [decodeWord_eq_command_iff, opcodeRow?_eq_some_iff]
  constructor
  · rintro ⟨hk, hz, hc⟩
    obtain ⟨i, hop, hfields⟩ := exists_operandsIn_of_lt (hk ▸ hp10)
    have hrow := eq_of_mem_opcodeFormats hp (i := i) (by rw [← hop, fieldOp_toNat, hk])
    exact ⟨i, ⟨p.2, ⟨hop, congrArg Prod.snd hrow, hfields⟩, hz, hc⟩, hrow⟩
  · rintro ⟨i, ⟨f, ⟨hop, rfl, -⟩, hz, hc⟩, rfl⟩
    exact ⟨by rw [← hop, fieldOp_toNat], hz, hc⟩

/-- Settles O5: the rows a word belongs to are those of the commands it decodes to, so its command's row or none. -/
theorem instanceOfExactlyOneTableRow : Obligations.InstanceOfExactlyOneTableRow := by
  intro w
  rw [← List.countP_eq_length_filter, opcodeTable_eq_map, List.countP_map]
  cases hw : decodeWord w with
  | command i =>
    rw [← count_opcodeFormats i, List.count]
    refine List.countP_congr fun p hp => ?_
    simp [isInstanceWord_iff_decodeWord w hp, hw]
  | rejected c =>
    refine List.countP_eq_zero.mpr fun p hp => ?_
    simp [isInstanceWord_iff_decodeWord w hp, hw]

end Sys2Proof

namespace Sys2Proof.Machine

/-! ## What a command answers -/

/-- A well-formed command names a channel where it has a channel field (R77). -/
theorem exists_channel?_of_wellFormed {i : Instr} {c : ChField} (hwf : i.WellFormed) (hi : i.chField? = some c) :
    ∃ k, channel? c = some k := by
  have hc : c ≠ 3 := i.wellFormed_iff.mp hwf c hi
  exact Option.ne_none_iff_exists'.mp fun hn => hc ((channel?_eq_none_iff c).mp hn)

/-- A well-formed command that answers a next state completes: its response carries a payload (R75, R183). -/
theorem exec_resp_of_wellFormed {i : Instr} {s t : State} (hwf : i.WellFormed) (h : exec i s = .next t) :
    ∃ p, t.resp = completedWord p := by
  cases hi : i.chField? with
  | none =>
    cases i with
    | nop | tick | ledset _ | ledblink _ _ _ _ =>
      cases h
      exact ⟨_, rfl⟩
    | addsample _ _ | isstable _ | curval _ | emit _ _ | reset _ | calib _ => cases hi
  | some c =>
    obtain ⟨k, hk⟩ := exists_channel?_of_wellFormed hwf hi
    obtain ⟨ch, p, hx⟩ := exec_eq_of_chan_eq hi hk h
    cases h.symm.trans (hx s rfl)
    exact ⟨p, rfl⟩

/-- Settles O42: the response is that of a completion, whose value is its 17-bit payload. -/
theorem completedResponsesHaveErrClear : Obligations.CompletedResponsesHaveErrClear := by
  intro i s t hwf h
  obtain ⟨p, hp⟩ := exec_resp_of_wellFormed hwf h
  rw [hp, completedWord_toNat]
  exact p.isLt

/-- Settles O47: the field 3 names no channel, so the command is rejected whatever it is. -/
theorem channelFieldsAndTheFourthCode : Obligations.ChannelFieldsAndTheFourthCode :=
  ⟨⟨rfl, rfl, rfl⟩, fun _ s hi => exec_of_channel?_eq_none hi rfl s⟩

end Sys2Proof.Machine

/-! Proofs about the sample path: Expand, Quantize and the push, ADDSAMPLE as a whole, and what samples of one value make of
a channel (40_sample_path.md rules R100 to R107). -/

namespace Sys2Proof.Machine

/-! ## The words of a command and their rejections -/

/-- The word of a well-formed command executes the command (R71, R84). -/
theorem execWord_encode {i : Instr} (h : i.WellFormed) (s : State) : execWord (encode i) s = exec i s := by
  rw [execWord, decodeOfEncodeIsTheCommand i h]

/-- A rejected word changes nothing but the response (R180). -/
theorem execWord_of_rejected {w : CmdWord} {c : Cause} (h : decodeWord w = .rejected c) (s : State) :
    execWord w s = .next (s.reject c) := by
  rw [execWord, h]

/-- A set must-be-zero bit of an opcode's format rejects the word (R78). -/
theorem rejectsReserved_of_lt {op : Nat} (hop : op < 10) : RejectsReserved op (mbzOfOpcode op) := by
  rintro w s rfl hz
  obtain ⟨-, hreserved, -⟩ := decodeTestsInOrder w
  rw [execWord_of_rejected (hreserved hop hz), State.reject, rejectedWord_reservedNonzero]

/-- Every opcode with a channel field rejects the field 3 (R80). -/
theorem rejectsChannelThree_of_channel {op : Nat} (h1 : 1 ≤ op) (h6 : op ≤ 6) :
    RejectsChannelThree op (mbzOfOpcode op) := by
  rintro w s rfl hz h3
  obtain ⟨-, -, hchannel, -⟩ := decodeTestsInOrder w
  rw [execWord_of_rejected (hchannel (by omega) hz ⟨h1, h6⟩ h3), State.reject, rejectedWord_illegalChannel]

/-- A command that completes with payload 0 answers the zero word (R75). -/
theorem complete_zero (s : State) : s.complete 0 = { s with resp := 0 } := rfl

/-! ## ADDSAMPLE -/

theorem exec_addsample {c : ChField} {k : ChanId} (hk : channel? c = some k) (raw : Raw) (s : State) :
    exec (.addsample c raw) s = .next ((s.setChan k ((s.chan k).addSample raw)).complete 0) :=
  withChannel_some hk s _

/-- Settles O30: the channel's new record is read off the two cases of a sample. -/
theorem addsampleResult : Obligations.AddsampleResult := by
  refine ⟨fun c raw k s hk => ?_, fun c raw s hc => ?_, rejectsReserved_of_lt (by omega),
    rejectsChannelThree_of_channel (by omega) (by omega)⟩
  · rw [exec_addsample hk, complete_zero]
    obtain ⟨hq, hch⟩ | ⟨v, hq, hch⟩ := addSample_cases (s.chan k) raw <;> rw [hch, hq]
  · have hwf : (Instr.addsample c raw).WellFormed := by simpa [Instr.wellFormed_iff, Instr.chField?] using hc
    exact execWord_encode hwf s

/-! ## Expand -/

/-- A step that neither serves a RESET of the channel nor takes the reset input gives back no range (R101). -/
theorem step_growsTo {s t : State} {k : ChanId} (hrst : s.rst = false) (h : step s = .next t)
    (hno : ∀ a w c, s.arbitrate = some a → s.presented a = some w → decodeWord w = .command (.reset c) →
      channel? c ≠ some k) : (s.chan k).GrowsTo (t.chan k) := by
  simp only [step, advance, hrst, Bool.false_eq_true, if_false] at h
  obtain ⟨-, rfl⟩ | ⟨a, w, u, ha, hw, hu, rfl⟩ := serve_next h
  · exact .refl _
  · rw [chan_deliver]
    obtain ⟨i, hi, hx⟩ | ⟨cause, -, rfl⟩ := execWord_next hu
    · have hgrows := (exec_moves hx k).growsTo fun c hc => hno a w c ha hw (hc ▸ hi)
      rwa [chan_accept] at hgrows
    · rw [chan_reject, chan_accept]
      exact .refl _

/-- The first sample sets both ends of the empty range of reset (R101). -/
theorem expand_empty (raw : Raw) : expandMin 0xFFFF raw = raw ∧ expandMax 0 raw = raw := by
  have hlt := raw.isLt
  have hmin : (0xFFFF : Raw).toNat = 0xFFFF := rfl
  have hmax : (0 : Raw).toNat = 0 := rfl
  rw [← BitVec.toNat_inj, ← BitVec.toNat_inj, expandMin_toNat, expandMax_toNat, hmin, hmax]
  omega

/-- Expand never narrows the range (R101). -/
theorem expand_widens (mn mx raw : Raw) : expandMin mn raw ≤ mn ∧ mx ≤ expandMax mx raw := by
  rw [BitVec.le_def, BitVec.le_def, expandMin_toNat, expandMax_toNat]
  omega

/-- Settles O31: a step is excused or grows the channel, and the rest is what Expand does to the two ends. -/
theorem expandTakesTheSampleIn : Obligations.ExpandTakesTheSampleIn := by
  refine ⟨fun s t k h => ?_, fun mn mx raw => ?_⟩
  · by_cases hrst : s.rst = true
    · exact .inr (.inl hrst)
    · by_cases hex : ∃ (a : Agent) (w : CmdWord) (c : ChField), s.arbitrate = some a ∧ s.presented a = some w ∧
          decodeWord w = .command (.reset c) ∧ channel? c = some k
      · exact .inr (.inr hex)
      · exact .inl (step_growsTo (Bool.eq_false_iff.mpr hrst) h
          fun a w c ha hw hd hc => hex ⟨a, w, c, ha, hw, hd, hc⟩).2
  · obtain ⟨hmin, hmax⟩ := expand_widens mn mx raw
    obtain ⟨hlow, hhigh⟩ := expand_bounds mn mx raw
    obtain ⟨hemptyMin, hemptyMax⟩ := expand_empty raw
    refine ⟨?_, ?_, hmin, hmax, hlow, hhigh, expandMin_le_expandMax mn mx raw, hemptyMin, hemptyMax⟩
    · rw [expandMin_toNat]
      split <;> omega
    · rw [expandMax_toNat]
      split <;> omega

/-! ## Quantize -/

/-- Settles O32: the truncated difference of the ends is zero where they agree. -/
theorem zeroRangeQuantizesToNothing : Obligations.ZeroRangeQuantizesToNothing := by
  intro mn mx raw hle
  rw [BitVec.le_def] at hle
  rw [quantize?_eq_none_iff, ← BitVec.toNat_inj]
  omega

/-- The quantized value of a sample in a range that is not zero, as a number (R103). -/
theorem quantize?_of_lt {mn mx : Raw} (h : mn < mx) (raw : Raw) :
    ∃ q, quantize? mn mx raw = some q ∧
      q.toNat = 16383 - scale (mx.toNat - mn.toNat) (clampOffset (mx.toNat - mn.toNat) (raw.toNat - mn.toNat)) :=
  quantize?_of_ne (Nat.sub_ne_zero_of_lt (BitVec.lt_def.mp h))

/-- Settles O33. -/
theorem quantizeFollowsTheFormula : Obligations.QuantizeFollowsTheFormula := by
  intro mn mx raw _ _ hlt
  obtain ⟨q, hq, hval⟩ := quantize?_of_lt hlt raw
  refine ⟨q, hq, ?_⟩
  rw [hval, scale, clampOffset, theta_eq]
  rfl

/-- No deadband reaches the smallest sample (R106 (b)). -/
theorem clampOffset_zero (range : Nat) : clampOffset range 0 = 0 := by
  simp [clampOffset]

/-- No deadband takes the largest sample away from the end (R106 (b)). -/
theorem clampOffset_self (range : Nat) : clampOffset range range = range := by
  simp only [clampOffset, theta_eq]
  split
  · omega
  · exact ite_self range

/-- A range below 128 has no deadband (R106 (e)). -/
theorem clampOffset_of_lt {range off : Nat} (hrange : range < 128) (hoff : off ≤ range) : clampOffset range off = off := by
  simp only [clampOffset, theta_eq]
  split
  · omega
  · split <;> omega

/-- Clamping keeps the order of the offsets. -/
theorem clampOffset_mono (range : Nat) {a b : Nat} (h : a ≤ b) : clampOffset range a ≤ clampOffset range b := by
  unfold clampOffset
  split
  · exact Nat.zero_le _
  · split
    · rw [if_neg (by omega), if_pos (by omega)]
    · rw [if_neg (by omega)]
      split <;> omega

theorem scale_mono (range : Nat) {a b : Nat} (h : a ≤ b) : scale range a ≤ scale range b :=
  Nat.div_le_div_right (Nat.mul_le_mul_right _ h)

theorem scale_zero (range : Nat) : scale range 0 = 0 := by
  simp [scale]

theorem scale_self {range : Nat} (h : 0 < range) : scale range range = 16383 :=
  Nat.mul_div_cancel_left _ h

/-- The largest sample quantizes to 0 (R106 (b)). -/
theorem quantize?_max {mn mx : Raw} (h : mn < mx) : quantize? mn mx mx = some 0 := by
  obtain ⟨q, hq, hval⟩ := quantize?_of_lt h mx
  rw [clampOffset_self, scale_self (Nat.sub_pos_of_lt (BitVec.lt_def.mp h))] at hval
  rw [hq, Option.some_inj]
  exact BitVec.eq_of_toNat_eq hval

/-- The smallest sample quantizes to `OUT_MAX` (R106 (b)). -/
theorem quantize?_min {mn mx : Raw} (h : mn < mx) : quantize? mn mx mn = some 16383 := by
  obtain ⟨q, hq, hval⟩ := quantize?_of_lt h mn
  rw [Nat.sub_self, clampOffset_zero, scale_zero] at hval
  rw [hq, Option.some_inj]
  exact BitVec.eq_of_toNat_eq hval

/-- The value never rises with the sample (R106 (f)). -/
theorem quantize?_antitone {mn mx raw raw' : Raw} {q q' : Value} (hlt : mn < mx) (hle : raw ≤ raw')
    (hq : quantize? mn mx raw = some q) (hq' : quantize? mn mx raw' = some q') : q' ≤ q := by
  obtain ⟨_, hp, hval⟩ := quantize?_of_lt hlt raw
  obtain ⟨_, hp', hval'⟩ := quantize?_of_lt hlt raw'
  cases hp.symm.trans hq
  cases hp'.symm.trans hq'
  rw [BitVec.le_def, hval, hval']
  exact Nat.sub_le_sub_left (scale_mono _ (clampOffset_mono _ (Nat.sub_le_sub_right (BitVec.le_def.mp hle) _))) _

/-- Settles O34. -/
theorem quantizeIsMonotoneWithFixedExtremes : Obligations.QuantizeIsMonotoneWithFixedExtremes := by
  intro mn mx hlt
  refine ⟨quantize?_max hlt, quantize?_min hlt, fun raw _ hle hsmall => ?_,
    fun raw raw' q q' _ hle _ => quantize?_antitone hlt hle⟩
  obtain ⟨q, hq, hval⟩ := quantize?_of_lt hlt raw
  rw [clampOffset_of_lt hsmall (Nat.sub_le_sub_right (BitVec.le_def.mp hle) _)] at hval
  exact ⟨q, hq, hval⟩

/-! ## Push -/

/-- Settles O35: a push appends, to the window or to its tail. -/
theorem pushIsFirstInFirstOut : Obligations.PushIsFirstInFirstOut := by
  refine fun win v => ⟨fun hlt => ?_, fun hfull => ?_⟩
  · rw [push_of_lt hlt]
    exact ⟨by simp, by simp, fun i hi => List.getElem?_append_left hi⟩
  · rw [push_of_full hfull]
    have htail : win.tail.length = 7 := by simp [hfull]
    refine ⟨by simp [hfull], ?_, fun i hi => ?_⟩
    · rw [← htail, List.getElem?_concat_length]
    · rw [List.getElem?_append_left (htail ▸ hi), List.getElem?_tail]

/-! ## Samples of one value -/

/-- Taking the same sample in again changes no range (R101). -/
theorem expand_expand (mn mx raw : Raw) :
    expandMin (expandMin mn raw) raw = expandMin mn raw ∧ expandMax (expandMax mx raw) raw = expandMax mx raw := by
  simp only [← BitVec.toNat_inj, expandMin_toNat, expandMax_toNat]
  omega

/-- Samples of one value push one value, since the range stands still after the first (R106 (g)). -/
theorem addSample_iterate_win {raw : Raw} {q : Value} (n : Nat) {ch : Channel}
    (hq : quantize? (expandMin ch.min raw) (expandMax ch.max raw) raw = some q) :
    ((Channel.addSample · raw)^[n] ch).win = (push · q)^[n] ch.win := by
  induction n generalizing ch with
  | zero => rfl
  | succ n ih =>
    have hwin : (ch.addSample raw).win = push ch.win q := by rw [addSample_win, hq]
    obtain ⟨hmin, hmax⟩ := expand_expand ch.min ch.max raw
    rw [Function.iterate_succ_apply, Function.iterate_succ_apply, ← hwin]
    exact ih (by rw [addSample_min, addSample_max, hmin, hmax, hq])

/-- One more equal entry at the end of a window, with room for it or an older entry to evict (R104). -/
theorem push_append_replicate {old : List Value} {n : Nat} (v : Value) (hlen : old.length + n ≤ 8) (hn : n < 8) :
    ∃ old' : List Value, push (old ++ List.replicate n v) v = old' ++ List.replicate (n + 1) v ∧
      old'.length + (n + 1) ≤ 8 := by
  by_cases hlt : old.length + n < 8
  · refine ⟨old, ?_, hlt⟩
    rw [push_of_lt (by simpa using hlt), List.append_assoc, List.replicate_succ']
  · cases old with
    | nil => exact absurd hn (by simpa using hlt)
    | cons x xs =>
      rw [List.length_cons] at hlen hlt
      refine ⟨xs, ?_, by omega⟩
      rw [push_of_full (by simp; omega), List.cons_append, List.tail_cons, List.append_assoc, List.replicate_succ']

/-- After `n` pushes of one value the window ends in `n` entries of it (R104). -/
theorem push_iterate {win : List Value} (hwin : win.length ≤ 8) (v : Value) {n : Nat} (hn : n ≤ 8) :
    ∃ old : List Value, (push · v)^[n] win = old ++ List.replicate n v ∧ old.length + n ≤ 8 := by
  induction n with
  | zero => exact ⟨win, by simp, hwin⟩
  | succ n ih =>
    obtain ⟨old, hold, hlen⟩ := ih (by omega)
    rw [Function.iterate_succ_apply', hold]
    exact push_append_replicate v hlen hn

/-- Eight pushes of one value fill the window with it, whatever it held. -/
theorem push_iterate_eight {win : List Value} (hwin : win.length ≤ 8) (v : Value) :
    (push · v)^[8] win = List.replicate 8 v := by
  obtain ⟨old, hold, hlen⟩ := push_iterate hwin v (Nat.le_refl 8)
  have hnil : old = [] := List.eq_nil_of_length_eq_zero (by omega)
  rw [hold, hnil, List.nil_append]

/-- Eight equal entries are stable (R120). -/
theorem stable_replicate (v : Value) : stable (List.replicate 8 v) = true := by
  simp [stable, full, highest?, lowest?]

/-- The median of eight equal entries is their value (R123). -/
theorem median?_replicate (v : Value) : median? (List.replicate 8 v) = some v := by
  have hsorted : sortedEntries (List.replicate 8 v) = List.replicate 8 v.toNat :=
    List.perm_replicate.mp (List.map_replicate ▸ sortedEntries_perm _)
  obtain ⟨m, hm⟩ := Option.isSome_iff_exists.mp ((median?_isSome_iff _).mpr (List.length_replicate (a := v)))
  have hval : m.toNat = (v.toNat + v.toNat) / 2 := by
    rw [median?_toNat hm, hsorted]
    rfl
  rw [hm, Option.some_inj, ← BitVec.toNat_inj]
  omega

/-- A run of equal ADDSAMPLEs gives the channel each sample in turn (R100). -/
theorem runCommands_replicate_addsample {c : ChField} {k : ChanId} (hk : channel? c = some k) (raw : Raw) (n : Nat)
    (s : State) :
    ∃ t, runCommands (List.replicate n (.addsample c raw)) s = .next t ∧
      t.chan k = (Channel.addSample · raw)^[n] (s.chan k) := by
  induction n generalizing s with
  | zero => exact ⟨s, rfl, rfl⟩
  | succ n ih =>
    obtain ⟨t, ht, hch⟩ := ih ((s.setChan k ((s.chan k).addSample raw)).complete 0)
    refine ⟨t, ?_, ?_⟩
    · rw [List.replicate_succ, runCommands_cons (exec_addsample hk raw s), ht]
    · rw [hch, chan_complete, chan_setChan_same, Function.iterate_succ_apply]

/-- Settles O56: the eight samples push one value eight times. -/
theorem eightIdenticalSamplesMakeStable : Obligations.EightIdenticalSamplesMakeStable := by
  intro c k raw s hk hcnt hne
  obtain ⟨t, ht, hch⟩ := runCommands_replicate_addsample hk raw 8 s
  have hrange : quantize? (expandMin (s.chan k).min raw) (expandMax (s.chan k).max raw) raw ≠ none := fun hnone =>
    hne ((zeroRangeQuantizesToNothing _ _ raw (expandMin_le_expandMax _ _ _)).mp hnone).symm
  obtain ⟨q, hq⟩ := Option.ne_none_iff_exists'.mp hrange
  have hwin : (t.chan k).win = List.replicate 8 q := by
    rw [hch, addSample_iterate_win 8 hq, push_iterate_eight hcnt]
  refine ⟨t, q, ht, hq, hwin, ?_, ?_⟩ <;> rw [hwin]
  · exact stable_replicate q
  · exact median?_replicate q

/-! ## A channel that never becomes ready -/

/-- What every command of a run keeps of a channel, the run keeps (R231). -/
theorem runCommands_keeps {P : Channel → Prop} {k : ChanId} {is : List Instr} {s t : State}
    (hmove : ∀ i ∈ is, ∀ ch ch', ChannelMove i k ch ch' → P ch → P ch') (h : runCommands is s = .next t)
    (hs : P (s.chan k)) : P (t.chan k) := by
  induction is generalizing s with
  | nil =>
    cases h
    exact hs
  | cons i is ih =>
    obtain ⟨u, hu, hrest⟩ := runCommands_cons_next h
    have hhead : P (u.chan k) := hmove i List.mem_cons_self _ _ (exec_moves hu k) hs
    exact ih (fun j hj => hmove j (List.mem_cons_of_mem i hj)) hrest hhead

/-- A channel that has seen no raw value but `raw`: its range is that of reset or the one point `raw`, and nothing was ever
pushed (R107). -/
def Channel.SeenOnly (raw : Raw) (ch : Channel) : Prop :=
  raw ≤ ch.min ∧ ch.max ≤ raw ∧ ch.win = [] ∧ ch.enabled = false

theorem fresh_seenOnly (raw : Raw) : Channel.fresh.SeenOnly raw := by
  refine ⟨?_, ?_, rfl, rfl⟩
  · rw [fresh_min]
    exact Nat.le_of_lt_succ raw.isLt
  · rw [fresh_max]
    exact Nat.zero_le _

/-- Another sample of that value makes the range the one point, so nothing is pushed (R102, R107). -/
theorem addSample_seenOnly {raw : Raw} {ch : Channel} (h : ch.SeenOnly raw) : (ch.addSample raw).SeenOnly raw := by
  obtain ⟨hmin, hmax, hwin, hen⟩ := h
  rw [BitVec.le_def] at hmin hmax
  have hnone : quantize? (expandMin ch.min raw) (expandMax ch.max raw) raw = none := by
    rw [quantize?_eq_none_iff, expandMin_toNat, expandMax_toNat]
    omega
  refine ⟨?_, ?_, ?_, ?_⟩
  · rw [addSample_min, BitVec.le_def, expandMin_toNat]
    omega
  · rw [addSample_max, BitVec.le_def, expandMax_toNat]
    omega
  · rw [addSample_win, hnone, hwin]
  · rw [addSample_enabled, hen]

/-- With no sample but `raw` no command readies the channel: CALIB finds an empty window, and EMIT a disabled channel
(R107, R143). -/
theorem ChannelMove.seenOnly {i : Instr} {k : ChanId} {ch ch' : Channel} {raw : Raw} (hm : ChannelMove i k ch ch')
    (hi : ∀ c r, i = .addsample c r → channel? c = some k → r = raw) (h : ch.SeenOnly raw) : ch'.SeenOnly raw := by
  cases hm with
  | stay => exact h
  | sample c r hj hc =>
    cases hi c r hj hc
    exact addSample_seenOnly h
  | emission c thr m hj hc he =>
    obtain ⟨-, -, -, hen⟩ := h
    cases hen.symm.trans he
  | clear c => exact fresh_seenOnly raw
  | judge c =>
    obtain ⟨hmin, hmax, hwin, -⟩ := h
    have hunstable : stable ch.win = false := by rw [hwin]; rfl
    exact ⟨hmin, hmax, hwin, hunstable⟩
  | count => exact h

/-- CURVAL on a disabled channel answers 0 (R125). -/
theorem exec_curval_of_disabled {c : ChField} {k : ChanId} {s : State} (hk : channel? c = some k)
    (hen : (s.chan k).enabled = false) : exec (.curval c) s = .next { s with resp := 0 } := by
  rw [← complete_zero]
  simp [exec, execCurval, withChannel_some hk, hen]

/-- EMIT on a disabled channel answers nothing (R126). -/
theorem exec_emit_of_disabled {c : ChField} {k : ChanId} {s : State} (hk : channel? c = some k)
    (hen : (s.chan k).enabled = false) (thr : Ticks) : exec (.emit c thr) s = .next { s with resp := 0 } := by
  rw [← complete_zero]
  simp [exec, execEmit, withChannel_some hk, hen]

/-- Settles O57: having seen only `raw` holds of a fresh channel, and every command of the run keeps it. -/
theorem constantInputNeverBecomesReady : Obligations.ConstantInputNeverBecomesReady := by
  intro k raw is s t hfresh hraw h
  have hs : (s.chan k).SeenOnly raw := by
    rw [hfresh, chan_reset]
    exact fresh_seenOnly raw
  have ht : (t.chan k).SeenOnly raw :=
    runCommands_keeps (fun i hi _ _ hm => hm.seenOnly fun c r hc => hraw c r (hc ▸ hi)) h hs
  obtain ⟨-, -, hwin, hen⟩ := ht
  exact ⟨hwin, hen, fun c hc => ⟨exec_curval_of_disabled hc hen, exec_emit_of_disabled hc hen⟩⟩

end Sys2Proof.Machine

/-! Proofs about queries and emission: what the window functions answer, the results of ISSTABLE, CURVAL and EMIT, and what a
run can emit on a channel (41_query_emit.md rules R120 to R127). -/

namespace Sys2Proof.Machine

/-! ## Window functions -/

/-- The value `h` is Highest exactly where it is an upper bound that the window holds (R121). -/
theorem highest?_eq_some_iff (win : List Value) (h : Value) :
    highest? win = some h.toNat ↔ h ∈ win ∧ ∀ x ∈ win, x ≤ h := by
  rw [highest?, List.max?_eq_some_iff, List.mem_map_of_injective fun _ _ => BitVec.eq_of_toNat_eq]
  simp [BitVec.le_def]

/-- The value `l` is Lowest exactly where it is a lower bound that the window holds (R122). -/
theorem lowest?_eq_some_iff (win : List Value) (l : Value) :
    lowest? win = some l.toNat ↔ l ∈ win ∧ ∀ x ∈ win, l ≤ x := by
  rw [lowest?, List.min?_eq_some_iff, List.mem_map_of_injective fun _ _ => BitVec.eq_of_toNat_eq]
  simp [BitVec.le_def]

theorem exists_highest? {win : List Value} (hne : win ≠ []) : ∃ h : Value, highest? win = some h.toNat := by
  have hsome : (highest? win).isSome = true := List.isSome_max?_of_ne_nil (mt List.map_eq_nil_iff.mp hne)
  obtain ⟨n, hn⟩ := Option.isSome_iff_exists.mp hsome
  obtain ⟨h, -, rfl⟩ := List.mem_map.mp (List.max?_mem hn)
  exact ⟨h, hn⟩

theorem exists_lowest? {win : List Value} (hne : win ≠ []) : ∃ l : Value, lowest? win = some l.toNat := by
  have hsome : (lowest? win).isSome = true := List.isSome_min?_of_ne_nil (mt List.map_eq_nil_iff.mp hne)
  obtain ⟨n, hn⟩ := Option.isSome_iff_exists.mp hsome
  obtain ⟨l, -, rfl⟩ := List.mem_map.mp (List.min?_mem hn)
  exact ⟨l, hn⟩

/-- Settles O37: both have a value on a window with an entry, and having it says that it is the extreme. -/
theorem highestAndLowestAreTheExtremes : Obligations.HighestAndLowestAreTheExtremes := by
  intro win hne
  obtain ⟨h, hh⟩ := exists_highest? hne
  obtain ⟨l, hl⟩ := exists_lowest? hne
  obtain ⟨hmem, hmax⟩ := (highest?_eq_some_iff win h).mp hh
  obtain ⟨lmem, lmin⟩ := (lowest?_eq_some_iff win l).mp hl
  exact ⟨h, l, hh, hl, hmem, lmem, fun x hx => ⟨lmin x hx, hmax x hx⟩⟩

/-- A stable window is eight times one value (R120). -/
theorem stable_iff_replicate (win : List Value) : stable win = true ↔ ∃ v, win = List.replicate 8 v := by
  constructor
  · intro hs
    have hlen : win.length = 8 := length_of_stable hs
    obtain ⟨h, l, hh, hl, -, -, hbounds⟩ :=
      highestAndLowestAreTheExtremes win (List.ne_nil_of_length_pos (by omega))
    have heq : h.toNat = l.toNat := by simpa [stable, full, hlen, hh, hl] using hs
    refine ⟨h, List.eq_replicate_iff.mpr ⟨hlen, fun x hx => BitVec.eq_of_toNat_eq ?_⟩⟩
    obtain ⟨hlow, hhigh⟩ := hbounds x hx
    rw [BitVec.le_def] at hlow hhigh
    omega
  · rintro ⟨v, rfl⟩
    exact stable_replicate v

/-- Settles O36: eight entries of one value are eight times that value. -/
theorem stableMeansEightEqualEntries : Obligations.StableMeansEightEqualEntries := by
  refine fun win => ⟨full_iff win, ?_⟩
  simp only [stable_iff_replicate, List.eq_replicate_iff, exists_and_left]

theorem exists_median? {win : List Value} (h : win.length = 8) : ∃ m, median? win = some m :=
  Option.isSome_iff_exists.mp ((median?_isSome_iff win).mpr h)

/-- There is one way to write the entries in non-decreasing order (R123). -/
theorem eq_sortedEntries_of_perm {win : List Value} {l : List Nat} (hperm : l.Perm (win.map BitVec.toNat))
    (hsorted : l.Pairwise (· ≤ ·)) : l = sortedEntries win :=
  (hperm.trans (sortedEntries_perm win).symm).eq_of_pairwise' hsorted (List.pairwise_insertionSort _ _)

/-- The median does not depend on the order of the entries (R123). -/
theorem median?_eq_of_perm {win win' : List Value} (h : win'.Perm win) : median? win' = median? win := by
  have hsorted : sortedEntries win' = sortedEntries win :=
    eq_sortedEntries_of_perm ((sortedEntries_perm win').trans (h.map _)) (List.pairwise_insertionSort _ _)
  rw [median?, median?, hsorted, h.length_eq]

/-- The sorted entries are entries of the window. -/
theorem exists_mem_of_sortedEntries_getD {win : List Value} {i : Nat} (h : i < win.length) :
    ∃ x ∈ win, (sortedEntries win).getD i 0 = x.toNat := by
  have hi : i < (sortedEntries win).length := by rwa [sortedEntries_length]
  obtain ⟨x, hx, heq⟩ := List.mem_map.mp ((sortedEntries_perm win).mem_iff.mp (List.getElem_mem hi))
  exact ⟨x, hx, by rw [List.getD_eq_getElem _ _ hi, heq]⟩

/-- The median lies between the bounds of the two middle entries (R123). -/
theorem median?_bounds {win : List Value} {m : Value} (hm : median? win = some m) {h l : Nat}
    (hh : highest? win = some h) (hl : lowest? win = some l) : l ≤ m.toNat ∧ m.toNat ≤ h := by
  have hlen : win.length = 8 := (median?_isSome_iff win).mp (by simp [hm])
  obtain ⟨x, hx, hx3⟩ := exists_mem_of_sortedEntries_getD (win := win) (i := 3) (by omega)
  obtain ⟨y, hy, hy4⟩ := exists_mem_of_sortedEntries_getD (win := win) (i := 4) (by omega)
  obtain ⟨-, hmax⟩ := List.max?_eq_some_iff.mp hh
  obtain ⟨-, hmin⟩ := List.min?_eq_some_iff.mp hl
  have hbounds : ∀ z ∈ win, l ≤ z.toNat ∧ z.toNat ≤ h := fun z hz =>
    ⟨hmin _ (List.mem_map_of_mem hz), hmax _ (List.mem_map_of_mem hz)⟩
  have hxb := hbounds x hx
  have hyb := hbounds y hy
  rw [median?_toNat hm, hx3, hy4]
  omega

/-- Settles O38: a stable window is eight times one value, which is then its median. -/
theorem medianIsTheFloorOfTheMiddleMean : Obligations.MedianIsTheFloorOfTheMiddleMean := by
  refine fun win => ⟨median?_of_ne, fun hlen => ?_⟩
  obtain ⟨m, hm⟩ := exists_median? hlen
  refine ⟨m, hm, fun l hperm hsorted => ?_, fun h l => median?_bounds hm, fun hs x hx => ?_, fun win' hperm => ?_⟩
  · rw [eq_sortedEntries_of_perm hperm hsorted, median?_toNat hm]
  · obtain ⟨v, rfl⟩ := (stable_iff_replicate win).mp hs
    rw [List.eq_of_mem_replicate hx, ← Option.some_inj, ← median?_replicate, hm]
  · rw [median?_eq_of_perm hperm, hm]

/-! ## Results of the queries -/

/-- The word of a command with a legal channel field executes the command (R71, R80). -/
theorem execWord_encode_of_channel {i : Instr} {c : ChField} (hi : i.chField? = some c) (hc : c ≠ 3) (s : State) :
    execWord (encode i) s = exec i s := by
  refine execWord_encode (i.wellFormed_iff.mpr fun d hd => ?_) s
  cases hi.symm.trans hd
  exact hc

/-- The response of a completed command is its payload's number (R75). -/
theorem completedWord_eq_ofNat (p : Payload) : completedWord p = BitVec.ofNat 32 p.toNat := by
  rw [← completedWord_toNat, BitVec.ofNat_toNat, BitVec.setWidth_eq]

theorem completedWord_boolPayload (b : Bool) : completedWord (boolPayload b) = if b then 1 else 0 := by
  cases b <;> rfl

theorem exec_isstable {c : ChField} {k : ChanId} (hk : channel? c = some k) (s : State) :
    exec (.isstable c) s = .next (s.complete (boolPayload (stable (s.chan k).win))) :=
  withChannel_some hk s _

/-- Settles O39. -/
theorem isstableResult : Obligations.IsstableResult := by
  refine ⟨fun c k s hk => ?_, fun c s hc => execWord_encode_of_channel (i := .isstable c) rfl hc s,
    rejectsReserved_of_lt (by omega), rejectsChannelThree_of_channel (by omega) (by omega)⟩
  rw [exec_isstable hk, State.complete, completedWord_boolPayload]

/-- CURVAL on an enabled channel answers the median (R125). -/
theorem exec_curval_of_enabled {c : ChField} {k : ChanId} {s : State} {m : Value} (hk : channel? c = some k)
    (hen : (s.chan k).enabled = true) (hm : median? (s.chan k).win = some m) :
    exec (.curval c) s = .next (s.complete (valuePayload m)) := by
  simp [exec, execCurval, withChannel_some hk, hen, withMedian_some hm]

/-- Settles O40. -/
theorem curvalResult : Obligations.CurvalResult := by
  refine ⟨fun c k s hk hen => exec_curval_of_disabled hk hen, fun c k s hk hen hcnt => ?_,
    fun c s hc => execWord_encode_of_channel (i := .curval c) rfl hc s,
    rejectsReserved_of_lt (by omega), rejectsChannelThree_of_channel (by omega) (by omega)⟩
  obtain ⟨m, hm⟩ := exists_median? hcnt
  refine ⟨m, hm, Nat.le_of_lt_succ m.isLt, ?_⟩
  rw [exec_curval_of_enabled hk hen hm, State.complete, completedWord_eq_ofNat, valuePayload_toNat]

/-! ## EMIT -/

/-- The gate of an emission: the value has changed and the cooldown has reached the threshold (R126). -/
theorem emits_iff (ch : Channel) (m : Value) (thr : Ticks) : emits ch m thr = true ↔ m ≠ ch.last ∧ thr ≤ ch.cd := by
  simp [emits]

/-- EMIT on an enabled channel emits the median where the gate is open, and answers nothing elsewhere (R126). -/
theorem exec_emit_of_enabled {c : ChField} {k : ChanId} {s : State} {m : Value} (hk : channel? c = some k)
    (hen : (s.chan k).enabled = true) (hm : median? (s.chan k).win = some m) (thr : Ticks) :
    exec (.emit c thr) s = .next
      (if m ≠ (s.chan k).last ∧ thr ≤ (s.chan k).cd then
        (s.setChan k ((s.chan k).emitted m)).complete (emittedPayload m)
      else s.complete 0) := by
  simp only [exec, execEmit, withChannel_some hk, hen, if_true, withMedian_some hm, emits_iff]
  split <;> rfl

/-- Settles O41. -/
theorem emitResult : Obligations.EmitResult := by
  refine ⟨fun c thr k s hk hen => exec_emit_of_disabled hk hen thr, fun c thr k s hk hen hcnt => ?_,
    fun c thr s hc => execWord_encode_of_channel (i := .emit c thr) rfl hc s,
    rejectsReserved_of_lt (by omega), rejectsChannelThree_of_channel (by omega) (by omega)⟩
  obtain ⟨m, hm⟩ := exists_median? hcnt
  refine ⟨m, hm, ?_⟩
  rw [exec_emit_of_enabled hk hen hm, complete_zero, State.complete, completedWord_eq_ofNat, emittedPayload_toNat]
  rfl

/-- EMIT on channel `k` answers nothing and writes nothing, or emits the median, which has changed since the last emission,
the cooldown having reached the threshold (R126). -/
theorem exec_emit_next {c : ChField} {thr : Ticks} {k : ChanId} {s t : State} (hk : channel? c = some k)
    (h : exec (.emit c thr) s = .next t) :
    t = s.complete 0 ∨
    ∃ m, median? (s.chan k).win = some m ∧ m ≠ (s.chan k).last ∧ thr ≤ (s.chan k).cd ∧
      t = (s.setChan k ((s.chan k).emitted m)).complete (emittedPayload m) := by
  obtain ⟨hn, -⟩ | ⟨j, -, -, rfl⟩ | ⟨j, m, -, -, -, -, rfl⟩ | ⟨j, m, hj, -, hm, hg, rfl⟩ := execEmit_next h
  · cases hk.symm.trans hn
  · exact .inl rfl
  · exact .inl rfl
  · cases hk.symm.trans hj
    obtain ⟨hne, hcd⟩ := (emits_iff _ _ _).mp hg
    exact .inr ⟨m, hm, hne, hcd, rfl⟩

/-- An emission, inverted: bit 16 of the response tells it from an EMIT that answers nothing (R75, R126). -/
theorem exec_emit_of_emittedNow {c : ChField} {thr : Ticks} {k : ChanId} {s t : State} (hk : channel? c = some k)
    (h : exec (.emit c thr) s = .next t) (he : emittedNow t.resp = true) :
    ∃ m, median? (s.chan k).win = some m ∧ m ≠ (s.chan k).last ∧ thr ≤ (s.chan k).cd ∧
      t = (s.setChan k ((s.chan k).emitted m)).complete (emittedPayload m) := by
  obtain rfl | hemit := exec_emit_next hk h
  · simp at he
  · exact hemit

/-- Settles O53: the two bytes are the lanes of the payload. -/
theorem emissionsCarryTheMedian : Obligations.EmissionsCarryTheMedian := by
  intro c thr k s t hk h he
  obtain ⟨m, hm, -, -, rfl⟩ := exec_emit_of_emittedNow hk h he
  have hlt := m.isLt
  rw [complete_resp, emittedValue_emitted, completedWord_toNat, emittedPayload_toNat]
  refine ⟨hm, ?_, ?_, ?_⟩ <;> omega

/-! ## Emissions along a run -/

theorem emissions_cons {k : ChanId} {i : Instr} {is : List Instr} {s t : State} (h : exec i s = .next t) :
    emissions k (i :: is) s = emissionOf k i t.resp ++ emissions k is t := by
  rw [emissions, h]

/-- Only an EMIT of the channel emits on it. -/
theorem emissionOf_eq_nil {k : ChanId} {i : Instr} (hi : ∀ c thr, i = .emit c thr → channel? c ≠ some k) (r : RespWord) :
    emissionOf k i r = [] := by
  cases i with
  | emit c thr => simp [emissionOf, hi c thr rfl]
  | nop | addsample _ _ | isstable _ | curval _ | reset _ | calib _ | tick | ledset _ | ledblink _ _ _ _ => rfl

/-- EMIT and RESET of the channel are the only moves that write `last` (R36). -/
theorem ChannelMove.last_eq {i : Instr} {k : ChanId} {ch ch' : Channel} (hm : ChannelMove i k ch ch')
    (hemit : ∀ c thr, i = .emit c thr → channel? c ≠ some k) (hreset : ∀ c, i = .reset c → channel? c ≠ some k) :
    ch'.last = ch.last := by
  cases hm with
  | sample c raw => exact addSample_last ch raw
  | emission c thr m hi hc => exact absurd hc (hemit c thr hi)
  | clear c hi hc => exact absurd hc (hreset c hi)
  | stay | judge _ _ _ | count _ => rfl

/-- A command that is no RESET of the channel emits nothing on it and keeps `last`, or emits one value, which is not `last`
and becomes it (R126). -/
theorem emissionOf_cases {k : ChanId} {i : Instr} {s t : State} (hreset : ∀ c, i = .reset c → channel? c ≠ some k)
    (h : exec i s = .next t) :
    (emissionOf k i t.resp = [] ∧ (t.chan k).last = (s.chan k).last) ∨
    (emissionOf k i t.resp = [(t.chan k).last] ∧ (s.chan k).last ≠ (t.chan k).last) := by
  by_cases hemit : ∃ c thr, i = .emit c thr ∧ channel? c = some k
  · obtain ⟨c, thr, rfl, hk⟩ := hemit
    obtain rfl | ⟨m, -, hne, -, rfl⟩ := exec_emit_next hk h
    · exact .inl (by simp [emissionOf])
    · exact .inr (by simp [emissionOf, hk, hne.symm])
  · have hother : ∀ c thr, i = .emit c thr → channel? c ≠ some k := fun c thr hi hk => hemit ⟨c, thr, hi, hk⟩
    exact .inl ⟨emissionOf_eq_nil hother t.resp, (exec_moves h k).last_eq hother hreset⟩

/-- Settles O51, by induction on the commands: `last` is always the value emitted before, or that of before the run. -/
theorem consecutiveEmissionsDiffer : Obligations.ConsecutiveEmissionsDiffer := by
  intro k is
  induction is with
  | nil => exact fun s _ => .singleton _
  | cons i is ih =>
    intro s hno
    cases h : exec i s with
    | fault f => simp [emissions, h]
    | refused r => simp [emissions, h]
    | next t =>
      have hrest := ih t fun c hc => hno c (List.mem_cons_of_mem i hc)
      rw [emissions_cons h]
      obtain ⟨hnone, hlast⟩ | ⟨hone, hne⟩ := emissionOf_cases (fun c hc => hno c (hc ▸ List.mem_cons_self)) h
      · rwa [hnone, ← hlast]
      · rw [hone]
        exact .cons_cons hne hrest

/-- A command advances a cooldown by at most one, and only TICK advances it (R36, R146). -/
theorem ChannelMove.cd_le {i : Instr} {k : ChanId} {ch ch' : Channel} (hm : ChannelMove i k ch ch') :
    ch'.cd.toNat ≤ ch.cd.toNat + [i].count .tick := by
  cases hm with
  | stay | judge _ _ _ => exact Nat.le_add_right _ _
  | sample c raw =>
    rw [addSample_cd]
    exact Nat.le_add_right _ _
  | emission _ _ _ _ _ _ _ _ | clear _ _ _ => exact Nat.zero_le _
  | count hi =>
    rw [hi, ticked_cd, tickCd_toNat, List.count_singleton_self]
    exact Nat.min_le_left _ _

/-- Along a run a cooldown advances by no more than the TICKs executed (R146). -/
theorem runCommands_cd_le {k : ChanId} {is : List Instr} {s t : State} (h : runCommands is s = .next t) :
    (t.chan k).cd.toNat ≤ (s.chan k).cd.toNat + is.count .tick := by
  induction is generalizing s with
  | nil =>
    cases h
    exact Nat.le_refl _
  | cons i is ih =>
    obtain ⟨u, hu, hrest⟩ := runCommands_cons_next h
    have hhead : (u.chan k).cd.toNat ≤ (s.chan k).cd.toNat + [i].count .tick := (exec_moves hu k).cd_le
    have htail := ih hrest
    rw [← List.singleton_append, List.count_append]
    omega

/-- Settles O52: the first emission leaves a cooldown of 0, the second finds it at the threshold or above, and only TICKs
advance it. A RESET would restart the cooldown too, so the proof does not use that there is none. -/
theorem emissionsAreAtLeastTheThresholdApart : Obligations.EmissionsAreAtLeastTheThresholdApart := by
  intro k c d thr1 thr2 is s t u v hc hd _ hfirst hfirstNow hrun hsecond hsecondNow
  obtain ⟨m, -, -, -, rfl⟩ := exec_emit_of_emittedNow hc hfirst hfirstNow
  obtain ⟨-, -, -, hthr, -⟩ := exec_emit_of_emittedNow hd hsecond hsecondNow
  calc thr2.toNat ≤ (u.chan k).cd.toNat := BitVec.le_def.mp hthr
    _ ≤ (((s.setChan k ((s.chan k).emitted m)).complete (emittedPayload m)).chan k).cd.toNat + is.count .tick :=
      runCommands_cd_le hrun
    _ = is.count .tick := by simp

end Sys2Proof.Machine

/-! Proofs about the control commands: the results of RESET, CALIB, TICK and NOP, what a run of TICKs leaves in the cooldowns,
and the reset input against three RESETs (42_control.md rules R140, R141, R143, R146 and R148). -/

namespace Sys2Proof.Machine

/-! ## Control commands on a legal operand -/

theorem exec_reset {c : ChField} {k : ChanId} (hk : channel? c = some k) (s : State) :
    exec (.reset c) s = .next ((s.setChan k Channel.fresh).complete 0) :=
  withChannel_some hk s _

theorem exec_calib {c : ChField} {k : ChanId} (hk : channel? c = some k) (s : State) :
    exec (.calib c) s = .next ((s.setChan k (s.chan k).calibrated).complete 0) :=
  withChannel_some hk s _

theorem exec_tick (s : State) : exec .tick s = .next ((s.mapChans Channel.ticked).complete 0) := rfl

theorem exec_nop (s : State) : exec .nop s = .next (s.complete 0) := rfl

/-- The initial condition of a channel with its values written out (R35, R140). -/
theorem fresh_eq : Channel.fresh = { min := 0xFFFF, max := 0, win := [], enabled := false, last := 0, cd := 0 } := rfl

/-- A tick writes the cooldown alone, one more than it was and at most `CD_MAX` (R146). -/
theorem ticked_eq (ch : Channel) : ch.ticked = { ch with cd := BitVec.ofNat 16 (min (ch.cd.toNat + 1) 0xFFFF) } := by
  rw [← tickCd_toNat, BitVec.ofNat_toNat, BitVec.setWidth_eq]
  rfl

/-! ## Results -/

/-- Settles O43. -/
theorem resetResult : Obligations.ResetResult := by
  refine ⟨fun c k s hk => ?_, fun c s hc => execWord_encode_of_channel (i := .reset c) rfl hc s,
    rejectsReserved_of_lt (by omega), rejectsChannelThree_of_channel (by omega) (by omega)⟩
  rw [exec_reset hk, complete_zero, fresh_eq]

/-- Settles O44. -/
theorem calibResult : Obligations.CalibResult := by
  refine ⟨fun c k s hk => ?_, fun c s hc => execWord_encode_of_channel (i := .calib c) rfl hc s,
    rejectsReserved_of_lt (by omega), rejectsChannelThree_of_channel (by omega) (by omega)⟩
  rw [exec_calib hk, complete_zero, Channel.calibrated]

/-- Settles O45: every channel is ticked, whichever it is. -/
theorem tickResult : Obligations.TickResult := by
  refine ⟨fun s => ⟨_, exec_tick s, rfl, rfl, fun k => ?_⟩, fun s => execWord_encode (i := .tick) rfl s,
    rejectsReserved_of_lt (by omega)⟩
  rw [chan_complete, chan_mapChans, ticked_eq]

/-- Settles O46. -/
theorem nopResult : Obligations.NopResult := by
  refine ⟨fun s => ?_, fun s => execWord_encode (i := .nop) rfl s, rejectsReserved_of_lt (by omega)⟩
  rw [exec_nop, complete_zero]

/-! ## Runs of control commands -/

/-- Settles O55, by induction on the TICKs: saturating after each is saturating once after all. -/
theorem ticksCountUpToSaturation : Obligations.TicksCountUpToSaturation := by
  intro n
  induction n with
  | zero =>
    intro s
    refine ⟨s, rfl, fun k => ?_⟩
    have hlt := (s.chan k).cd.isLt
    omega
  | succ n ih =>
    intro s
    obtain ⟨t, ht, hcd⟩ := ih ((s.mapChans Channel.ticked).complete 0)
    refine ⟨t, ?_, fun k => ?_⟩
    · rw [List.replicate_succ, runCommands_cons (exec_tick s), ht]
    · rw [hcd, chan_complete, chan_mapChans, ticked_cd, tickCd_toNat]
      omega

/-- Settles O15: the run writes a fresh record to each channel and renders the dark mask. -/
theorem threeResetsAndDarkLedsMatchTheResetInput : Obligations.ThreeResetsAndDarkLedsMatchTheResetInput := by
  intro s
  rw [runCommands_cons (exec_reset (k := .c0) rfl s), runCommands_cons (exec_reset (k := .c1) rfl _),
    runCommands_cons (exec_reset (k := .c2) rfl _)]
  exact ⟨_, rfl, rfl, rfl, rfl, rfl⟩

end Sys2Proof.Machine

/-! Proofs about the LED renderer: what LEDSET and LEDBLINK show and answer, and that they depend on nothing else (43_led.md
rules R160 to R162). -/

namespace Sys2Proof.Machine

/-! ## Rendering -/

/-- A rendering writes the mask to the latch and answers the mask's number, and does nothing else (R28, R75). -/
theorem render_eq (s : State) (m : Mask) : s.render m = { s with ledOut := m, resp := BitVec.ofNat 32 m.toNat } := by
  rw [State.render, State.complete, completedWord_eq_ofNat, maskPayload_toNat]

theorem exec_ledset (mask : Mask) (s : State) : exec (.ledset mask) s = .next (s.render mask) := rfl

theorem exec_ledblink (maskA maskB : Mask) (elapsed half : Ticks) (s : State) :
    exec (.ledblink maskA maskB elapsed half) s =
      .next (s.render (if blinkPhase elapsed half = 0 then maskA else maskB)) := rfl

/-- A half-period of 0 has no phase but the first (R161). -/
theorem blinkPhase_zero (elapsed : Ticks) : blinkPhase elapsed 0 = 0 := if_pos rfl

/-- The phase is the parity of the half-periods elapsed (R161). -/
theorem blinkPhase_of_ne_zero (elapsed : Ticks) {half : Ticks} (h : half ≠ 0) :
    blinkPhase elapsed half = elapsed.toNat / half.toNat % 2 := if_neg h

/-- An LED command renders one mask, the same on every state (R162). -/
theorem exists_exec_eq_render {i : Instr} (hi : isLedCommand i = true) : ∃ m, ∀ s, exec i s = .next (s.render m) := by
  cases i with
  | ledset mask => exact ⟨_, exec_ledset mask⟩
  | ledblink maskA maskB elapsed half => exact ⟨_, exec_ledblink maskA maskB elapsed half⟩
  | nop | addsample _ _ | isstable _ | curval _ | emit _ _ | reset _ | calib _ | tick => cases hi

/-! ## Results -/

/-- Settles O25: an LED command is the rendering of one mask, and no other command renders. -/
theorem ledCommandsArePure : Obligations.LedCommandsArePure := by
  refine ⟨fun i hi => ?_, fun _ _ _ hi h => exec_ledOut_of_not_led hi h⟩
  obtain ⟨m, hm⟩ := exists_exec_eq_render hi
  exact ⟨m, BitVec.ofNat 32 m.toNat, fun s => by rw [hm, render_eq]⟩

/-- Settles O48. -/
theorem ledsetResult : Obligations.LedsetResult :=
  ⟨fun mask s => ⟨_, exec_ledset mask s, render_eq s mask, fun i => (BitVec.testBit_toNat mask).symm⟩,
    fun mask s => execWord_encode (i := .ledset mask) rfl s, rejectsReserved_of_lt (by omega)⟩

/-- Settles O49: the mask follows the phase, which a half-period of 0 fixes at 0. -/
theorem ledblinkResult : Obligations.LedblinkResult := by
  refine ⟨fun maskA maskB elapsed half s => ?_,
    fun maskA maskB elapsed half s => execWord_encode (i := .ledblink maskA maskB elapsed half) rfl s,
    rejectsReserved_of_lt (by omega)⟩
  rw [exec_ledblink, render_eq]
  by_cases h : half = 0
  · simp only [h, blinkPhase_zero, if_true]
  · simp only [h, blinkPhase_of_ne_zero elapsed h, if_false]

end Sys2Proof.Machine

/-! Proofs about exceptions and hazards: no step stops the machine in a state that meets the invariants, and commands of two
different channels commute (60_exceptions.md rules R183 and R193). -/

namespace Sys2Proof.Machine

/-! ## Every command answers -/

/-- A channel that meets the invariants has a median while it is enabled (R27 (e), R123, R144). -/
theorem exists_median?_of_inv {ch : Channel} (h : ch.Inv) (hen : ch.enabled = true) : ∃ m, median? ch.win = some m := by
  obtain ⟨-, -, -, hfull⟩ := h
  exact exists_median? (hfull hen)

theorem exists_exec_curval {c : ChField} {k : ChanId} {s : State} (hk : channel? c = some k) (h : (s.chan k).Inv) :
    ∃ t, exec (.curval c) s = .next t := by
  cases hen : (s.chan k).enabled with
  | false => exact ⟨_, exec_curval_of_disabled hk hen⟩
  | true =>
    obtain ⟨m, hm⟩ := exists_median?_of_inv h hen
    exact ⟨_, exec_curval_of_enabled hk hen hm⟩

theorem exists_exec_emit {c : ChField} {k : ChanId} {s : State} (hk : channel? c = some k) (h : (s.chan k).Inv)
    (thr : Ticks) : ∃ t, exec (.emit c thr) s = .next t := by
  cases hen : (s.chan k).enabled with
  | false => exact ⟨_, exec_emit_of_disabled hk hen thr⟩
  | true =>
    obtain ⟨m, hm⟩ := exists_median?_of_inv h hen
    exact ⟨_, exec_emit_of_enabled hk hen hm thr⟩

/-- A command of channel `k` answers where that channel meets the invariants: only CURVAL and EMIT could stop, at the median
(R183). -/
theorem exists_exec_of_channel {i : Instr} {c : ChField} {k : ChanId} {s : State} (hi : i.chField? = some c)
    (hk : channel? c = some k) (h : (s.chan k).Inv) : ∃ t, exec i s = .next t := by
  cases i with
  | nop | tick | ledset _ | ledblink _ _ _ _ => cases hi
  | addsample c raw =>
    cases hi
    exact ⟨_, exec_addsample hk raw s⟩
  | isstable c =>
    cases hi
    exact ⟨_, exec_isstable hk s⟩
  | curval c =>
    cases hi
    exact exists_exec_curval hk h
  | emit c thr =>
    cases hi
    exact exists_exec_emit hk h thr
  | reset c =>
    cases hi
    exact ⟨_, exec_reset hk s⟩
  | calib c =>
    cases hi
    exact ⟨_, exec_calib hk s⟩

/-- No command stops in a state that meets the invariants (R183). -/
theorem exists_exec {s : State} (hs : s.Inv) (i : Instr) : ∃ t, exec i s = .next t := by
  cases hi : i.chField? with
  | none =>
    cases i with
    | nop | tick | ledset _ | ledblink _ _ _ _ => exact ⟨_, rfl⟩
    | addsample _ _ | isstable _ | curval _ | emit _ _ | reset _ | calib _ => cases hi
  | some c =>
    cases hk : channel? c with
    | none => exact ⟨_, exec_of_channel?_eq_none hi hk s⟩
    | some k => exact exists_exec_of_channel hi hk ((inv_iff s).mp hs k)

/-! ## Every step answers -/

/-- A word that decodes to a command executes it (R71). -/
theorem execWord_of_command {w : CmdWord} {i : Instr} (h : decodeWord w = .command i) (s : State) :
    execWord w s = exec i s := by
  rw [execWord, h]

/-- A word either decodes to a command, which answers, or is rejected, which is a next state too (R180, R183). -/
theorem exists_execWord {s : State} (hs : s.Inv) (w : CmdWord) : ∃ t, execWord w s = .next t := by
  cases hw : decodeWord w with
  | command i =>
    rw [execWord_of_command hw]
    exact exists_exec hs i
  | rejected c => exact ⟨_, execWord_of_rejected hw s⟩

/-- Taking a command off its port writes no register, so the invariants stay (R56). -/
theorem accept_inv {s : State} (hs : s.Inv) (a : Agent) : (s.accept a).Inv := by
  rw [inv_iff] at hs ⊢
  simpa only [chan_accept] using hs

/-- Serving holds the state where nobody waits, and otherwise delivers the answer of the presented word (R57, R71, R194). -/
theorem exists_serve {s : State} (hs : s.Inv) : ∃ t, serve s = .next t := by
  unfold serve
  cases ha : s.arbitrate with
  | none => exact ⟨s, rfl⟩
  | some a =>
    obtain ⟨w, hw⟩ := presented_of_arbitrate ha
    obtain ⟨t, ht⟩ := exists_execWord (accept_inv hs a) w
    exact ⟨t.deliver a, by simp only [hw, ht, delivered]⟩

/-- Settles O18: the reset input always answers, and so does serving a port, since an enabled channel has a median. -/
theorem noStepStopsTheMachine : Obligations.NoStepStopsTheMachine := by
  intro s hs
  unfold step advance
  split
  · exact ⟨_, rfl⟩
  · exact exists_serve hs

/-! ## Commands of two channels -/

/-- Settles O28: each command writes one record and one payload that do not depend on the other's channel, and writes of two
different channels commute. -/
theorem commandsOfDifferentChannelsCommute : Obligations.CommandsOfDifferentChannelsCommute := by
  intro i j c d k l s t u hi hj hk hl hne ht hu
  obtain ⟨chi, p, hxi⟩ := exec_eq_of_chan_eq hi hk ht
  cases ht.symm.trans (hxi s rfl)
  obtain ⟨chj, q, hxj⟩ := exec_eq_of_chan_eq hj hl hu
  cases hu.symm.trans (hxj _ rfl)
  have hsl : s.chan l = ((s.setChan k chi).complete p).chan l := by simp [hne.symm]
  have hsk : ((s.setChan l chj).complete q).chan k = s.chan k := by simp [hne]
  refine ⟨_, _, hxj s hsl, hxi _ hsk, ?_, rfl, rfl⟩
  simp only [setChan_complete, complete_complete, setChan_comm s hne]
  exact ⟨rfl, rfl, rfl, rfl⟩

end Sys2Proof.Machine

/-! Proofs about a run without TICK: what it leaves in a cooldown, and what EMIT then answers (70_reset_and_hazards.md rule
R220). -/

namespace Sys2Proof.Machine

/-! ## No ticks, no emission -/

/-- Only TICK advances a cooldown, so a run without one leaves a cooldown of 0 where it is (R220). -/
theorem runCommands_cd_eq_zero {k : ChanId} {is : List Instr} {s t : State} (htick : Instr.tick ∉ is)
    (hcd : (s.chan k).cd = 0) (h : runCommands is s = .next t) : (t.chan k).cd = 0 := by
  have hle := runCommands_cd_le (k := k) h
  rw [hcd, List.count_eq_zero_of_not_mem htick] at hle
  exact BitVec.eq_of_toNat_eq (Nat.le_zero.mp hle)

/-- EMIT with a threshold the cooldown has not reached answers nothing and writes nothing (R126). -/
theorem exec_emit_of_cd_lt {c : ChField} {thr : Ticks} {k : ChanId} {s t : State} (hk : channel? c = some k)
    (hcd : (s.chan k).cd < thr) (h : exec (.emit c thr) s = .next t) : t = s.complete 0 := by
  obtain hnone | ⟨m, -, -, hthr, -⟩ := exec_emit_next hk h
  · exact hnone
  · exact absurd hthr (BitVec.not_le.mpr hcd)

/-- Settles O54: the run leaves the cooldown at 0, which is below every threshold above 0. -/
theorem noTicksNoEmission : Obligations.NoTicksNoEmission := by
  intro k c thr is s t u htick hcd hrun hk hthr hemit
  have hzero : (t.chan k).cd = 0 := runCommands_cd_eq_zero htick hcd hrun
  have hlt : (t.chan k).cd < thr := by
    rw [hzero]
    exact (BitVec.pos_iff_ne_zero thr).mpr hthr
  exact ⟨hzero, exec_emit_of_cd_lt hk hlt hemit⟩

end Sys2Proof.Machine

/-! Proofs about the ports and the step: the arbitration of the three ports, what serving one of them does, the reset input,
and that every command presented is answered (20_memory.md rules R53 to R57 and R60, 30_encoding.md rules R71 and R72,
60_exceptions.md rules R180, R183 and R194, 70_reset_and_hazards.md rules R210, R211 and R232). -/

namespace Sys2Proof.Machine

/-! ## What a port presents -/

@[simp] theorem presented_reject (s : State) (c : Cause) (a : Agent) : (s.reject c).presented a = s.presented a := by
  cases a <;> rfl

@[simp] theorem presented_deliver (s : State) (a b : Agent) : (s.deliver a).presented b = s.presented b := by
  cases b <;> rfl

/-- Taking one agent's command leaves the other ports as they are (R56). -/
theorem presented_accept_of_ne (s : State) {a b : Agent} (h : b ≠ a) : (s.accept a).presented b = s.presented b := by
  cases b <;> simp [State.presented, h.symm]

/-- How many commands an agent still has on its port. -/
def State.pending (s : State) : Agent → Nat
  | .host => s.hostCmds.length
  | .source => s.samples.length
  | .timebase => s.ticks

/-- An agent presents nothing exactly when its port is empty. -/
theorem presented_eq_none_iff (s : State) (a : Agent) : s.presented a = none ↔ s.pending a = 0 := by
  cases a <;> simp [State.presented, State.pending]

/-! ## Arbitration -/

theorem waiting_eq_nil_iff (s : State) : s.waiting = [] ↔ ∀ a, s.presented a = none := by
  simp [List.eq_nil_iff_forall_not_mem, mem_waiting_iff]

theorem arbitrate_eq_none_iff (s : State) : s.arbitrate = none ↔ ∀ a, s.presented a = none := by
  rw [← waiting_eq_nil_iff]
  obtain ⟨hnone, hwait⟩ | ⟨a, ha, hmem⟩ := arbitrate_cases s
  · simp [hnone, hwait]
  · simp [ha, List.ne_nil_of_mem hmem]

/-- Settles O11: the agent that arbitration names waits, so a lone agent is the one named. -/
theorem arbitrationServesAWaitingAgent : Obligations.ArbitrationServesAWaitingAgent := by
  refine fun s => ⟨arbitrate_eq_none_iff s, fun a ha => ?_, fun a ha hlone => ?_⟩
  · obtain ⟨w, hw⟩ := presented_of_arbitrate ha
    exact Option.isSome_of_eq_some hw
  · obtain ⟨hnone, -⟩ | ⟨b, hb, hmem⟩ := arbitrate_cases s
    · rw [(arbitrate_eq_none_iff s).mp hnone a] at ha
      cases ha
    · have hba : b = a := by
        by_contra hne
        simpa [hlone b hne] using (mem_waiting_iff s b).mp hmem
      rw [hb, hba]

/-! ## The step -/

theorem step_of_rst {s : State} (h : s.rst = true) : step s = .next s.resetInput := if_pos h

theorem step_of_not_rst {s : State} (h : s.rst = false) : step s = serve s := if_neg (ne_true_of_eq_false h)

/-- The agent that arbitration names has its word executed and gets the answer (R57, R71). -/
theorem serve_of_arbitrate {s : State} {a : Agent} {w : CmdWord} (ha : s.arbitrate = some a)
    (hw : s.presented a = some w) : serve s = delivered a (execWord w (s.accept a)) := by
  simp only [serve, ha, hw]

/-- Settles O7. -/
theorem stepRunsTheDecodedCommand : Obligations.StepRunsTheDecodedCommand := by
  intro s a w i hrst ha hw hi
  rw [step_of_not_rst hrst, serve_of_arbitrate ha hw, execWord_of_command hi]
  rfl

/-- Settles O9: empty ports present nothing, so arbitration names nobody. -/
theorem idleStepHoldsTheState : Obligations.IdleStepHoldsTheState := by
  intro s hrst hhost hsource htime
  have hidle : s.arbitrate = none := by
    rw [arbitrate_eq_none_iff]
    intro a
    cases a <;> simp [State.presented, hhost, hsource, htime]
  simp only [step_of_not_rst hrst, serve, hidle]

/-- Settles O14. -/
theorem resetInputClearsAndDrops : Obligations.ResetInputClearsAndDrops := fun s hrst =>
  ⟨s.resetInput, step_of_rst hrst, rfl, chan_resetInput s, rfl, rfl, List.drop_one.symm, List.drop_one.symm, rfl⟩

/-! ## Rejected words -/

theorem err_completed (a : Agent) (p : Payload) : (Response.mk a (completedWord p)).err = false := by
  have := p.isLt
  rw [err_eq_decide, completedWord_toNat, decide_eq_false_iff_not]
  omega

theorem err_rejected (a : Agent) (c : Cause) : (Response.mk a (rejectedWord c)).err = true := by
  cases c <;> simp [err_eq_decide]

/-- Settles O8: the step rejects the word on the ports the served agent's command has left, and delivers the cause. -/
theorem illegalWordIsRejected : Obligations.IllegalWordIsRejected := by
  intro s a w c hrst ha hw hc
  refine ⟨((s.accept a).reject c).deliver a, ⟨a, rejectedWord c⟩, ?_, by simp [SameRegisters], by simpa using hrst,
    fun b hb => ?_, by simp, rfl, err_rejected a c, ?_⟩
  · rw [step_of_not_rst hrst, serve_of_arbitrate ha hw, execWord_of_rejected hc]
    rfl
  · rw [presented_deliver, presented_reject, presented_accept_of_ne s hb]
  · cases c <;> rfl

/-! ## Port transactions and bytes as words -/

/-- The word of a term with the channel field 3 is rejected (R80). -/
theorem decodeWord_encode_of_not_wellFormed {i : Instr} (h : ¬ i.WellFormed) :
    decodeWord (encode i) = .rejected .illegalChannel := by
  obtain ⟨hop, hz, hfields⟩ := (encode_eq_iff i _).mp rfl
  rw [wellFormed_iff_of_operandsIn hfields, Classical.not_imp, not_not] at h
  rw [decodeWord_of_operandsIn hop hfields, if_neg (not_not.mpr hz), if_pos h]

/-- The word of any term answers as the term does: with the channel field 3 both are rejected (R71, R80). -/
theorem execWord_encode_eq_exec (i : Instr) (s : State) : execWord (encode i) s = exec i s := by
  by_cases hwf : i.WellFormed
  · exact execWord_encode hwf s
  · rw [execWord_of_rejected (decodeWord_encode_of_not_wellFormed hwf)]
    simp only [Instr.wellFormed_iff, not_forall, not_not] at hwf
    obtain ⟨c, hi, hc⟩ := hwf
    exact (exec_of_channel?_eq_none hi ((channel?_eq_none_iff c).mpr hc) s).symm

theorem presented_source {s : State} {x : Sample} {rest : List Sample} (h : s.samples = x :: rest) :
    s.presented .source = some (sourceWord x) := by
  simp [State.presented, h]

theorem sourceWord_eq_encode (x : Sample) : sourceWord x = encode (.addsample x.ch x.raw) := rfl

/-- ADDSAMPLE always answers, and with `ERR` set exactly for the channel field 3 (R72, R80). -/
theorem exists_exec_addsample (c : ChField) (raw : Raw) (s : State) (a : Agent) :
    ∃ t, exec (.addsample c raw) s = .next t ∧ (Response.mk a t.resp).err = (c == 3) := by
  cases hk : channel? c with
  | none =>
    have hc : (c == 3) = true := beq_iff_eq.mpr ((channel?_eq_none_iff c).mp hk)
    exact ⟨_, exec_of_channel?_eq_none rfl hk s, (err_rejected a _).trans hc.symm⟩
  | some k =>
    have hc : (c == 3) = false := beq_eq_false_iff_ne.mpr (channel?_ne_three hk)
    exact ⟨_, exec_addsample hk raw s, (err_completed a 0).trans hc.symm⟩

/-- Settles O10: the source's word is the word of its ADDSAMPLE, and the step answers as that command does. -/
theorem portTransactionsAreCommands : Obligations.PortTransactionsAreCommands := by
  refine ⟨fun s x rest hx => ⟨presented_source hx, presented_source hx⟩, fun s x rest hrst hx ha => ?_,
    fun s h => if_neg h, by decide⟩
  obtain ⟨t, ht, herr⟩ := exists_exec_addsample x.ch x.raw (s.accept .source) .source
  obtain ⟨-, -, -, -, hresp, -⟩ := exec_interface ht
  refine ⟨t.deliver .source, ⟨.source, t.resp⟩, ?_, ?_, rfl, herr⟩
  · rw [step_of_not_rst hrst, serve_of_arbitrate ha (presented_source hx), sourceWord_eq_encode,
      execWord_encode_eq_exec, ht]
    rfl
  · rw [deliver_responses, hresp, accept_responses]

/-- Settles O6: concatenation is base 256. -/
theorem bytesDecodeMostSignificantFirst : Obligations.BytesDecodeMostSignificantFirst := by
  intro b7 b6 b5 b4 b3 b2 b1 b0 rest w hw
  have hword : (b7 ++ b6 ++ b5 ++ b4 ++ b3 ++ b2 ++ b1 ++ b0 : BitVec 64) = w := by
    apply BitVec.eq_of_toNat_eq
    simpa only [toNat_append_mul, show 2 ^ 8 = 256 from rfl] using hw.symm
  rw [← hword]
  rfl

/-! ## One response per served command -/

/-- No word touches the ports, the reset input or the responses already given. -/
theorem execWord_interface {w : CmdWord} {s t : State} (h : execWord w s = .next t) : SameInterface s t := by
  obtain ⟨i, -, hi⟩ | ⟨c, -, rfl⟩ := execWord_next h
  · exact exec_interface hi
  · exact ⟨rfl, rfl, rfl, rfl, rfl, rfl⟩

/-- Settles O12: executing the word leaves the interface as taking it off its port left it, and the answer is delivered once. -/
theorem oneResponsePerServedCommand : Obligations.OneResponsePerServedCommand := by
  intro s t hrst h
  rw [step_of_not_rst hrst] at h
  obtain ⟨hnone, rfl⟩ | ⟨a, w, u, -, hw, hu, rfl⟩ := serve_next h
  · exact .inl ⟨(arbitrate_eq_none_iff t).mp hnone, rfl⟩
  · obtain ⟨hurst, hhost, hsource, htime, hresp, -⟩ := execWord_interface hu
    rw [accept_rst, hrst] at hurst
    rw [accept_hostCmds] at hhost
    rw [accept_samples] at hsource
    rw [accept_ticks] at htime
    rw [accept_responses] at hresp
    exact .inr ⟨a, u.resp, Option.isSome_of_eq_some hw, by rw [deliver_responses, hresp], hhost, hsource, htime, hurst⟩

/-! ## Every presented command is answered -/

/-- How many responses an agent has been given. -/
def State.answered (s : State) (a : Agent) : Nat := s.responses.countP fun r => r.agent == a

/-- How many commands are presented in all. -/
def State.load (s : State) : Nat := s.pending .host + s.pending .source + s.pending .timebase

theorem load_eq_zero_iff (s : State) : s.load = 0 ↔ ∀ a, s.pending a = 0 := by
  rw [State.load]
  refine ⟨fun h a => ?_, fun h => by simp only [h]⟩
  cases a <;> omega

/-- A step with a command presented moves one command of one agent from pending to answered, and leaves the counts of the
other agents (R56, R232). -/
theorem step_answers_one {s t : State} (hrst : s.rst = false) (h : step s = .next t) (hload : s.load ≠ 0) :
    t.rst = false ∧ ∃ a, ∀ b, s.pending b = t.pending b + (if a = b then 1 else 0) ∧
      t.answered b = s.answered b + (if a = b then 1 else 0) := by
  obtain ⟨hidle, -⟩ | ⟨a, r, hsome, hresp, hhost, hsource, htime, htrst⟩ := oneResponsePerServedCommand s t hrst h
  · exact absurd ((load_eq_zero_iff s).mpr fun a => (presented_eq_none_iff s a).mp (hidle a)) hload
  · have hpos : s.pending a ≠ 0 := by
      rw [Ne, ← presented_eq_none_iff]
      exact Option.isSome_iff_ne_none.mp hsome
    have hpending : ∀ b, t.pending b = s.pending b - (if a = b then 1 else 0) := by
      intro b
      cases b <;> simp only [State.pending, hhost, hsource, htime] <;> split <;> simp
    refine ⟨htrst, a, fun b => ⟨?_, ?_⟩⟩
    · rw [hpending b]
      split
      · subst b
        omega
      · rfl
    · simp [State.answered, hresp, List.countP_append, List.countP_singleton]

/-- Such a step lowers the load by one. -/
theorem load_of_step {s t : State} {a : Agent} (h : ∀ b, s.pending b = t.pending b + (if a = b then 1 else 0)) :
    s.load = t.load + 1 := by
  rw [State.load, State.load, h .host, h .source, h .timebase]
  cases a <;> simp <;> omega

/-- A run of one more step goes on from the state the first step answers. -/
theorem core_run_succ {s t : State} (n : Nat) (h : step s = .next t) :
    Host.Core.run Sys2Proof.core (n + 1) s = Host.Core.run Sys2Proof.core n t := by
  have hstep : Sys2Proof.core.step s = .next t := h
  simp only [Host.Core.run, hstep]

/-- As many steps as commands are presented leave none pending, each agent's turned into responses to it (R60, R232). -/
theorem run_answers_all (n : Nat) {s : State} (hs : s.Inv) (hrst : s.rst = false) (hload : s.load = n) :
    ∃ t : State, Host.Core.run Sys2Proof.core n s = .next t ∧
      ∀ a, t.pending a = 0 ∧ t.answered a = s.answered a + s.pending a := by
  induction n generalizing s with
  | zero =>
    have hpending := (load_eq_zero_iff s).mp hload
    exact ⟨s, rfl, fun a => ⟨hpending a, by rw [hpending a, Nat.add_zero]⟩⟩
  | succ n ih =>
    obtain ⟨u, hu⟩ := noStepStopsTheMachine s hs
    obtain ⟨hurst, a, hmove⟩ := step_answers_one hrst hu (by omega)
    have hfall : s.load = u.load + 1 := load_of_step fun b => (hmove b).1
    obtain ⟨t, ht, hall⟩ := ih (everyStepKeepsTheInvariants s u hs hu) hurst (by omega)
    refine ⟨t, (core_run_succ n hu).trans ht, fun b => ?_⟩
    obtain ⟨hdone, hcount⟩ := hall b
    obtain ⟨hpending, hanswered⟩ := hmove b
    exact ⟨hdone, by omega⟩

/-- Settles O50: every step of the run serves a command, since some are pending until the last is answered. -/
theorem everyPresentedCommandIsAnswered : Obligations.EveryPresentedCommandIsAnswered := by
  intro s hs hrst
  obtain ⟨t, ht, hall⟩ := run_answers_all s.load hs hrst rfl
  obtain ⟨hhost, hhostCount⟩ := hall .host
  obtain ⟨hsource, hsourceCount⟩ := hall .source
  obtain ⟨htime, htimeCount⟩ := hall .timebase
  exact ⟨t, ht, List.eq_nil_of_length_eq_zero hhost, List.eq_nil_of_length_eq_zero hsource, htime, hhostCount,
    hsourceCount, htimeCount⟩

end Sys2Proof.Machine

/-! Proofs about the stop: a command stops only at the median of an enabled channel whose window is not full
(41_query_emit.md rule R123, 93_implementation_defined.md U4). -/

namespace Sys2Proof.Machine

/-! ## Where a command stops -/

/-- The command asks for the median of an enabled channel whose window is not full (R123, U4). -/
def AsksPartialMedian (i : Instr) (s : State) : Prop :=
  ∃ (c : ChField) (k : ChanId), (i = .curval c ∨ ∃ thr, i = .emit c thr) ∧ channel? c = some k ∧
    (s.chan k).enabled = true ∧ (s.chan k).cnt ≠ 8

theorem withMedian_of_ne {ch : Channel} (h : ch.cnt ≠ 8) (f : Value → Result) :
    withMedian ch f = .fault .medianUndefined := by
  rw [withMedian, median?_of_ne h]

/-- Such a command stops: the median has no value (R123). -/
theorem exec_of_asksPartialMedian {i : Instr} {s : State} (h : AsksPartialMedian i s) :
    exec i s = .fault .medianUndefined := by
  obtain ⟨c, k, rfl | ⟨thr, rfl⟩, hk, hen, hcnt⟩ := h
  · simp only [exec, execCurval, withChannel_some hk, hen, if_true, withMedian_of_ne hcnt]
  · simp only [exec, execEmit, withChannel_some hk, hen, if_true, withMedian_of_ne hcnt]

theorem exists_withChannel {c : ChField} {s : State} {f : ChanId → Result}
    (h : ∀ k, channel? c = some k → ∃ t, f k = .next t) : ∃ t, withChannel c s f = .next t := by
  cases hk : channel? c with
  | none => exact ⟨_, withChannel_none hk s f⟩
  | some k =>
    rw [withChannel_some hk]
    exact h k hk

/-- The gate of CURVAL and EMIT answers where an enabled channel has a full window (R123, R125, R126). -/
theorem exists_gated_median {ch : Channel} {f : Value → Result} {t₀ : State} (hfull : ch.enabled = true → ch.cnt = 8)
    (hf : ∀ m, ∃ t, f m = .next t) : ∃ t, (if ch.enabled then withMedian ch f else .next t₀) = .next t := by
  split
  · obtain ⟨m, hm⟩ := exists_median? (hfull ‹_›)
    rw [withMedian_some hm]
    exact hf m
  · exact ⟨_, rfl⟩

/-- Any other command answers a next state. -/
theorem exists_exec_of_not_asksPartialMedian {i : Instr} {s : State} (h : ¬ AsksPartialMedian i s) :
    ∃ t, exec i s = .next t := by
  cases i with
  | nop | tick | ledset _ | ledblink _ _ _ _ => exact ⟨_, rfl⟩
  | addsample _ _ | isstable _ | reset _ | calib _ => exact exists_withChannel fun k _ => ⟨_, rfl⟩
  | curval c =>
    refine exists_withChannel fun k hk => exists_gated_median (fun hen => ?_) fun m => ⟨_, rfl⟩
    exact not_not.mp fun hcnt => h ⟨c, k, .inl rfl, hk, hen, hcnt⟩
  | emit c thr =>
    refine exists_withChannel fun k hk => exists_gated_median (fun hen => ?_) fun m => ?_
    · exact not_not.mp fun hcnt => h ⟨c, k, .inr ⟨thr, rfl⟩, hk, hen, hcnt⟩
    · split <;> exact ⟨_, rfl⟩

/-- Settles O19: a command that asks for such a median stops, and any other answers a next state. -/
theorem stopsOnlyOnTheMedianOfAPartialWindow : Obligations.StopsOnlyOnTheMedianOfAPartialWindow := by
  intro i s
  by_cases h : AsksPartialMedian i s
  · have hstop := exec_of_asksPartialMedian h
    exact ⟨iff_of_true hstop h, .inl hstop⟩
  · obtain ⟨t, ht⟩ := exists_exec_of_not_asksPartialMedian h
    exact ⟨iff_of_false (by rw [ht]; nofun) h, .inr ⟨t, ht⟩⟩

end Sys2Proof.Machine
